-- ==== Sys2Proof/Word.lean ====
section
/-! DEFINITION. The word types of HCC (00_scope.md R8, R10, R11). Numbers are unsigned; bit 0 is the least significant. -/

namespace Sys2Proof

/-- A 32-bit word: a command or response header, a payload word, the register ST. -/
abbrev Word := BitVec 32

/-- A symbol, `SYM_W` = 16 bits (R8, D5). -/
abbrev Symbol := BitVec 16

/-- A byte, the unit of BUF (R50). -/
abbrev Byte := BitVec 8

/-- A bit sequence; element 0 is the first bit (R11). -/
abbrev Bits := List Bool

end Sys2Proof
end

