-- ==== Sys2Proof/Machine/Bits.lean ====
section
/-! DEFINITION. Numbers, bytes and words as bit sequences (00_scope.md R12, 20_memory.md R52 to R56,
30_encoding.md R83). One convention everywhere: least-significant bit first. -/

namespace Sys2Proof

/-- `lsbf(v, w)`: the low `w` bits of `v`, bit 0 first (R12). -/
def lsbf (v w : Nat) : Bits := (List.range w).map fun i => v.testBit i

/-- `val(s)`: the number whose bit `i` is `s[i]` (R12). -/
def val : Bits → Nat
  | [] => 0
  | b :: s => b.toNat + 2 * val s

/-- A bit sequence cut into groups of `c` bits from the front, each group as a number; the last group is
zero-padded on its high end (R53 with `c = 8`, R83 with `c = 32`). -/
def chunks (c : Nat) (s : Bits) : List Nat :=
  (List.range ((s.length + (c - 1)) / c)).map fun k => val ((s.drop (c * k)).take c)

/-- `pack(s)`, the bytes of a bit sequence (R53). -/
def pack (s : Bits) : List Byte := (chunks 8 s).map (BitVec.ofNat 8)

/-- `unpack(b)`, the bit sequence of a byte sequence (R54). -/
def unpack (b : List Byte) : Bits := b.flatMap fun x => lsbf x.toNat 8

/-- A bit sequence as payload words (R83). -/
def toWords (s : Bits) : List Word := (chunks 32 s).map (BitVec.ofNat 32)

/-- The first `n` bits carried by payload words (R83, R87). -/
def ofWords (n : Nat) (ws : List Word) : Bits := (ws.flatMap fun x => lsbf x.toNat 32).take n

end Sys2Proof
end

