-- ==== Sys2Proof/Syntax.lean ====
section
/-! DEFINITION. The commands of HCC as data (30_encoding.md R80, R81), the header and payload they travel in, and
the names of the failures a command can end in (60_exceptions.md R231, R235). -/

namespace Sys2Proof

/-- The 17 commands, one constructor per row of spec/opcode_table.json. -/
inductive Instr where
  /-- CLR (R220). -/
  | clr
  /-- STAT (R222). -/
  | stat
  /-- PKB bits (R110). -/
  | pkb (bits : Bits)
  /-- PKF value, width (R111). -/
  | pkf (value : Word) (width : BitVec 8)
  /-- PKFIN (R112). -/
  | pkfin
  /-- UPLD (R131). -/
  | upld
  /-- UPRF width (R133). -/
  | uprf (width : BitVec 8)
  /-- UPPK n (R134). -/
  | uppk (n : BitVec 16)
  /-- UPRB n (R135). -/
  | uprb (n : BitVec 16)
  /-- TBLD (R151). -/
  | tbld
  /-- CTBLD (R171). -/
  | ctbld
  /-- CTSER (R176). -/
  | ctser
  /-- CTDES (R181). -/
  | ctdes
  /-- CTCODE sym (R186). -/
  | ctcode (sym : Symbol)
  /-- CTSYM (R189). -/
  | ctsym
  /-- COMP (R200). -/
  | comp
  /-- DECOMP (R205). -/
  | decomp
  deriving DecidableEq, Repr

/-- A command as the host hands it over: a header word and payload words (R80). -/
structure Command where
  header : Word
  payload : List Word
  deriving DecidableEq, Repr

/-- The source's three error kinds (R231). -/
inductive ErrorKind where
  | underflow
  | symbolNotFound
  | noMatchingCode
  deriving DecidableEq, Repr

/-- The five refusal reasons (R235). -/
inductive RefuseReason where
  | badOpcode
  | badOperand
  | capacity
  | emptyTable
  | latched
  deriving DecidableEq, Repr

/-- The six formats of a command (R82). -/
inductive Format where
  | Z | W | V | N | B | S
  deriving DecidableEq, Repr

/-- PKU16 v, the pseudo-command for PKF v, 16 (R92). -/
abbrev Instr.pku16 (v : Word) : Instr := .pkf v 16

/-- PKU32 v, the pseudo-command for PKF v, 32 (R92). -/
abbrev Instr.pku32 (v : Word) : Instr := .pkf v 32

/-- UPU16, the pseudo-command for UPRF 16 (R92). -/
abbrev Instr.upu16 : Instr := .uprf 16

/-- UPU32, the pseudo-command for UPRF 32 (R92). -/
abbrev Instr.upu32 : Instr := .uprf 32

end Sys2Proof
end

