-- ==== Sys2Proof/WellFormed.lean ====
section
/-! DEFINITION. Which instruction terms are commands of HCC: the operand ranges of 30_encoding.md R82 that the
types of Instr do not already carry. -/

namespace Sys2Proof

/-- PKB carries at most 65535 bits; a width is at most 32 (R82, R87). -/
def Instr.wellFormed : Instr → Bool
  | .pkb bits => decide (bits.length ≤ 65535)
  | .pkf _ width => decide (width.toNat ≤ 32)
  | .uprf width => decide (width.toNat ≤ 32)
  | .clr => true
  | .stat => true
  | .pkfin => true
  | .upld => true
  | .uppk _ => true
  | .uprb _ => true
  | .tbld => true
  | .ctbld => true
  | .ctser => true
  | .ctdes => true
  | .ctcode _ => true
  | .ctsym => true
  | .comp => true
  | .decomp => true

end Sys2Proof
end

