-- ==== Sys2Proof/Decode.lean ====
section
/-! DEFINITION. Decoding and encoding of commands (30_encoding.md R81 to R87, R90), the opcode table R84 as rows,
and the assembler syntax R91. -/

namespace Sys2Proof

/-! ## Header fields (R81) -/

/-- `op`, bits 7:0. -/
def opField (h : Word) : BitVec 8 := h.extractLsb' 0 8

/-- `w`, bits 15:8. -/
def wField (h : Word) : BitVec 8 := h.extractLsb' 8 8

/-- `n`, bits 31:16. -/
def nField (h : Word) : BitVec 16 := h.extractLsb' 16 16

/-- A header word of its three fields. -/
def mkHeader (op w : BitVec 8) (n : BitVec 16) : Word := n ++ w ++ op

/-! ## The opcode map (R84) -/

/-- The format of an opcode; `none` for the 239 reserved ones. -/
def formatOf (op : BitVec 8) : Option Format :=
  match op.toNat with
  | 0x00 => some .Z
  | 0x01 => some .Z
  | 0x10 => some .B
  | 0x11 => some .V
  | 0x12 => some .Z
  | 0x20 => some .Z
  | 0x21 => some .W
  | 0x22 => some .N
  | 0x23 => some .N
  | 0x30 => some .Z
  | 0x40 => some .Z
  | 0x41 => some .Z
  | 0x42 => some .Z
  | 0x43 => some .S
  | 0x44 => some .Z
  | 0x50 => some .Z
  | 0x51 => some .Z
  | _ => none

/-- Formats whose `w` field must be zero (R85 step 3). -/
def Format.wZero : Format → Bool
  | .Z | .N | .B | .S => true
  | .W | .V => false

/-- Formats whose `n` field must be zero (R85 step 4). -/
def Format.nZero : Format → Bool
  | .Z | .W | .V => true
  | .N | .B | .S => false

/-- Number of payload words of a format with count field `n` (R85 step 6). -/
def Format.payloadWords (f : Format) (n : Nat) : Nat :=
  match f with
  | .V => 1
  | .B => (n + 31) / 32
  | .Z | .W | .N | .S => 0

/-- Whether the last payload word of a format B command has a bit set at or above position `n mod 32` (R85 step 7). -/
def unusedBitsSet (n : Nat) (payload : List Word) : Bool :=
  decide (n % 32 ≠ 0) && decide ((payload.getLast?.getD 0) >>> (n % 32) ≠ 0#32)

/-- Operand assembly (R87), after every test of R85 has passed. -/
def assemble (op w : BitVec 8) (n : BitVec 16) (payload : List Word) : Except RefuseReason Instr :=
  match op.toNat with
  | 0x00 => .ok .clr
  | 0x01 => .ok .stat
  | 0x10 => .ok (.pkb (ofWords n.toNat payload))
  | 0x11 => .ok (.pkf (payload.head?.getD 0) w)
  | 0x12 => .ok .pkfin
  | 0x20 => .ok .upld
  | 0x21 => .ok (.uprf w)
  | 0x22 => .ok (.uppk n)
  | 0x23 => .ok (.uprb n)
  | 0x30 => .ok .tbld
  | 0x40 => .ok .ctbld
  | 0x41 => .ok .ctser
  | 0x42 => .ok .ctdes
  | 0x43 => .ok (.ctcode n)
  | 0x44 => .ok .ctsym
  | 0x50 => .ok .comp
  | 0x51 => .ok .decomp
  | _ => .error .badOpcode

/-- `decode(h, payload)`, the ordered tests of R85. -/
def decode (c : Command) : Except RefuseReason Instr :=
  let op := opField c.header
  let w := wField c.header
  let n := nField c.header
  match formatOf op with
  | none => .error .badOpcode
  | some f =>
    if f.wZero && decide (w ≠ 0) then .error .badOperand
    else if f.nZero && decide (n ≠ 0) then .error .badOperand
    else if !f.wZero && decide (32 < w.toNat) then .error .badOperand
    else if decide (c.payload.length ≠ f.payloadWords n.toNat) then .error .badOperand
    else if decide (f = .B) && unusedBitsSet n.toNat c.payload then .error .badOperand
    else assemble op w n c.payload

/-! ## Encoding -/

/-- The header and payload of a command (R84, R91). -/
def encode : Instr → Command
  | .clr => ⟨mkHeader 0x00 0 0, []⟩
  | .stat => ⟨mkHeader 0x01 0 0, []⟩
  | .pkb bits => ⟨mkHeader 0x10 0 (BitVec.ofNat 16 bits.length), toWords bits⟩
  | .pkf value width => ⟨mkHeader 0x11 width 0, [value]⟩
  | .pkfin => ⟨mkHeader 0x12 0 0, []⟩
  | .upld => ⟨mkHeader 0x20 0 0, []⟩
  | .uprf width => ⟨mkHeader 0x21 width 0, []⟩
  | .uppk n => ⟨mkHeader 0x22 0 n, []⟩
  | .uprb n => ⟨mkHeader 0x23 0 n, []⟩
  | .tbld => ⟨mkHeader 0x30 0 0, []⟩
  | .ctbld => ⟨mkHeader 0x40 0 0, []⟩
  | .ctser => ⟨mkHeader 0x41 0 0, []⟩
  | .ctdes => ⟨mkHeader 0x42 0 0, []⟩
  | .ctcode sym => ⟨mkHeader 0x43 0 sym, []⟩
  | .ctsym => ⟨mkHeader 0x44 0 0, []⟩
  | .comp => ⟨mkHeader 0x50 0 0, []⟩
  | .decomp => ⟨mkHeader 0x51 0 0, []⟩

/-- Number of payload words, from the header alone (R86); a reserved opcode has none. -/
def payloadCount (h : Word) : Nat :=
  match formatOf (opField h) with
  | none => 0
  | some f => f.payloadWords (nField h).toNat

/-- The command whose bits are the number `w`: the header is the low 32 bits, each payload word the next 32. Bits at
`nbits` and above count as zero. -/
def commandOfNat (nbits w : Nat) : Command :=
  let v := w % 2 ^ nbits
  let h := BitVec.ofNat 32 v
  ⟨h, (List.range (payloadCount h)).map fun j => BitVec.ofNat 32 (v >>> (32 * (j + 1)))⟩

/-- The instruction the decoder reads from a table word; none where it refuses. -/
def decodeTableWord (nbits w : Nat) : Option Instr :=
  match decode (commandOfNat nbits w) with
  | .ok i => some i
  | .error _ => none

/-! ## The opcode table as rows (R84), which the header of every command selects by mask and match -/

/-- The mnemonic of a command (R84). -/
def Instr.mnemonic : Instr → String
  | .clr => "CLR"
  | .stat => "STAT"
  | .pkb _ => "PKB"
  | .pkf _ _ => "PKF"
  | .pkfin => "PKFIN"
  | .upld => "UPLD"
  | .uprf _ => "UPRF"
  | .uppk _ => "UPPK"
  | .uprb _ => "UPRB"
  | .tbld => "TBLD"
  | .ctbld => "CTBLD"
  | .ctser => "CTSER"
  | .ctdes => "CTDES"
  | .ctcode _ => "CTCODE"
  | .ctsym => "CTSYM"
  | .comp => "COMP"
  | .decomp => "DECOMP"

/-- One row of R84: mnemonic, mask and match over the header word. -/
abbrev OpRow := String × Word × Word

/-- The rows of R84. -/
def opTable : List OpRow :=
  [("CLR", 0xFFFFFFFF, 0x00000000), ("STAT", 0xFFFFFFFF, 0x00000001), ("PKB", 0x0000FFFF, 0x00000010),
   ("PKF", 0xFFFF00FF, 0x00000011), ("PKFIN", 0xFFFFFFFF, 0x00000012), ("UPLD", 0xFFFFFFFF, 0x00000020)] ++
  [("UPRF", 0xFFFF00FF, 0x00000021), ("UPPK", 0x0000FFFF, 0x00000022), ("UPRB", 0x0000FFFF, 0x00000023),
   ("TBLD", 0xFFFFFFFF, 0x00000030), ("CTBLD", 0xFFFFFFFF, 0x00000040), ("CTSER", 0xFFFFFFFF, 0x00000041)] ++
  [("CTDES", 0xFFFFFFFF, 0x00000042), ("CTCODE", 0x0000FFFF, 0x00000043), ("CTSYM", 0xFFFFFFFF, 0x00000044),
   ("COMP", 0xFFFFFFFF, 0x00000050), ("DECOMP", 0xFFFFFFFF, 0x00000051)]

/-- The rows a header selects: `h AND mask = match`. -/
def rowsSelected (h : Word) : List OpRow := opTable.filter fun r => h &&& r.2.1 == r.2.2

/-! ## Assembler syntax (R91) -/

/-- A bit sequence in double quotes, element 0 leftmost. -/
def asmBits (s : Bits) : String :=
  String.ofList (['"'] ++ s.map (fun b => if b then '1' else '0') ++ ['"'])

/-- One command in the syntax of R91: mnemonic, operands separated by commas, numbers in decimal. -/
def Instr.asm (i : Instr) : String :=
  match i with
  | .pkb bits => i.mnemonic ++ " " ++ asmBits bits
  | .pkf value width => i.mnemonic ++ " " ++ toString value.toNat ++ ", " ++ toString width.toNat
  | .uprf width => i.mnemonic ++ " " ++ toString width.toNat
  | .uppk n => i.mnemonic ++ " " ++ toString n.toNat
  | .uprb n => i.mnemonic ++ " " ++ toString n.toNat
  | .ctcode sym => i.mnemonic ++ " " ++ toString sym.toNat
  | .clr | .stat | .pkfin | .upld | .tbld | .ctbld | .ctser | .ctdes | .ctsym | .comp | .decomp => i.mnemonic

end Sys2Proof
end

