-- ==== Sys2Proof/Config.lean ====
section
/-! DEFINITION. The parameters of HCC (00_scope.md R8), and the free value of the model. -/

namespace Sys2Proof

/-- The two OPEN parameters of one instance of HCC (R8, D17). No command changes them; State holds them as
data so that every statement is about every instance (log 3). -/
structure Config where
  /-- `TXT_CAP`, capacity of TXT in symbols. -/
  txtCap : Nat
  /-- `BUF_CAP`, capacity of BUF in bytes. -/
  bufCap : Nat
  deriving DecidableEq, Repr

/-- The ranges R8 gives the open parameters. -/
def Config.ok (c : Config) : Bool := decide (c.txtCap < 2 ^ 32) && decide (4 ≤ c.bufCap)

/-- The instance State.reset stands for. DESIGN CHOICE (log 3): the spec leaves both numbers open. -/
def Config.default : Config := ⟨2 ^ 32 - 1, 2 ^ 32 - 1⟩

/-- `CNT_W`, width of the artifact's symbol count. -/
abbrev cntW : Nat := 32

/-- `ROWS_W`, width of the field row count minus one. -/
abbrev rowsW : Nat := 16

/-- `ORD_W`, width of a row's symbol field. -/
abbrev ordW : Nat := 16

/-- `LEN_W`, width of a row's code length field. -/
abbrev lenW : Nat := 16

/-- `ROWS_MAX`, greatest number of rows of a code table. -/
abbrev rowsMax : Nat := 65536

/-- `LEN_MAX`, greatest length of one code. -/
abbrev lenMax : Nat := 65535

/-- `NODES_MAX`, greatest number of tree nodes. -/
abbrev nodesMax : Nat := 131071

/-- FREE VALUE (log 7, DESIGN CHOICE): the one-word result that repeats a length of 2^32 or more. The spec gives
the word as the length (30_encoding.md R89) and reduces only UPLD's modulo 2^32 (45_system.md R226 (e)), so
it states no value here. `op` is the command's opcode. -/
opaque Config.overlongWord (op : Byte) (len : Nat) : Word

end Sys2Proof
end

