-- ==== Sys2Proof/Machine/State.lean ====
section
/-! DEFINITION. The state of HCC (10_state.md R20 to R33), the host interactions (20_memory.md R69), and the two
ways a step of the model can stop. -/

namespace Sys2Proof.Machine

/-- The bit unpacker (R25): `UP.bits` and the cursor `UP.pos`. -/
structure Unpacker where
  bits : Bits
  pos : Nat
  deriving DecidableEq, Repr

/-- A row of the code table (R29). -/
structure Row where
  sym : Symbol
  code : Bits
  deriving DecidableEq, Repr

/-- A cell of node memory (R28). A node id is a cell's index. Weights are `WT_W` = 32-bit numbers that never
overflow (R161), held as Nat (log 5). -/
inductive Node where
  | leaf (sym : Symbol) (weight : Nat)
  | internal (left right weight : Nat)
  deriving DecidableEq, Repr

/-- The weight of a node, either variant. -/
def Node.weight : Node → Nat
  | .leaf _ w => w
  | .internal _ _ w => w

/-- A response: header and payload words (30_encoding.md R88). -/
structure Response where
  header : Word
  payload : List Word
  deriving DecidableEq, Repr

/-- The six ways the host interacts with HCC (R69). -/
inductive HostAct where
  | issue (c : Command)
  | writeTxt (t : List Symbol)
  | readTxt
  | writeBuf (b : List Byte)
  | readBuf
  | reset
  deriving DecidableEq, Repr

/-- What an interaction hands back to the host (R69, R88). -/
inductive HostOut where
  | nothing
  | response (r : Response)
  | text (t : List Symbol)
  | bytes (b : List Byte)
  deriving DecidableEq, Repr

/-- The state: the nine pieces R20 lists (TXT.len, BUF.len and NM.count are the lengths of their lists, log 4), and
three fields of the model's own: the parameters (log 3), the host's waiting interactions (log 1) and what the
last step handed back (log 2). -/
structure State where
  /-- TXT_CAP and BUF_CAP (R8); no step changes them. -/
  cfg : Config
  /-- `ST` (R23). -/
  st : Word
  /-- `PK.bits` (R24). -/
  pkBits : Bits
  /-- `UP.bits`, `UP.pos` (R25). -/
  up : Unpacker
  /-- `TXT[0 ..< TXT.len]` (R26). -/
  txt : List Symbol
  /-- `BUF[0 ..< BUF.len]` (R27). -/
  buf : List Byte
  /-- `NM[0 ..< NM.count]` (R28). -/
  nm : List Node
  /-- `ROOT` (R28). -/
  root : Option Nat
  /-- `CT` (R29). -/
  ct : List Row
  /-- Host interactions not yet taken, oldest first. -/
  inbox : List HostAct
  /-- What the step just made handed back. -/
  out : HostOut
  deriving DecidableEq, Repr

/-- Faults of the model. No command of the spec stops the machine; both faults belong to states that break the tree
invariants of R28, which no run reaches. Both are safe: the model stops where the spec gives no meaning (log 6). -/
inductive Fault where
  /-- CTBLD or COMP followed ROOT or a child link to an id that is no cell of NM. Safe. -/
  | nodeWithoutValue
  /-- CTBLD or COMP followed a path longer than NM has cells, so the links form a cycle. Safe. -/
  | treeCycle
  deriving DecidableEq, Repr

/-- Refusals of the model (not to be confused with the refusals of 60_exceptions.md R235, which are next states). -/
inductive Refusal where
  /-- Raised by an arm of exec that has no meaning yet. Safe. -/
  | notModelled (mnemonic : String)
  /-- HostWriteTxt of more than TXT_CAP symbols, which R71 says is not possible. Safe (log 8). -/
  | hostTextOverCapacity
  /-- HostWriteBuf of more than BUF_CAP bytes, which R71 says is not possible. Safe (log 8). -/
  | hostBytesOverCapacity
  deriving DecidableEq, Repr

/-- What an instruction or a step answers. -/
abbrev Result := Host.Outcome State Fault Refusal

/-- The reset state (R33), with nothing from the host waiting. -/
def State.reset : State where
  cfg := Config.default
  st := 0
  pkBits := []
  up := ⟨[], 0⟩
  txt := []
  buf := []
  nm := []
  root := none
  ct := []
  inbox := []
  out := .nothing

end Sys2Proof.Machine
end

