-- ==== Sys2Proof/Machine/Flags.lean ====
section
/-! DEFINITION. The status register ST (10_state.md R23), the only flag state of HCC: the fields ERR and REF, what
sets them (60_exceptions.md R236, R240) and the latch they form (R242). -/

namespace Sys2Proof

/-- The code of an error kind, in ST.ERR and in a response (R231). -/
def ErrorKind.code : ErrorKind → BitVec 4
  | .underflow => 1
  | .symbolNotFound => 2
  | .noMatchingCode => 3

/-- The code of a refusal reason, in ST.REF and in a response (R235). -/
def RefuseReason.code : RefuseReason → BitVec 4
  | .badOpcode => 1
  | .badOperand => 2
  | .capacity => 3
  | .emptyTable => 4
  | .latched => 5

namespace Machine

/-- `ERR`, bits 3:0 of ST. -/
def errField (st : Word) : BitVec 4 := st.extractLsb' 0 4

/-- `REF`, bits 7:4 of ST. -/
def refField (st : Word) : BitVec 4 := st.extractLsb' 4 4

/-- `ST.ERR <- code`; the other bits keep their value. -/
def setErr (st : Word) (code : BitVec 4) : Word := (st &&& 0xFFFFFFF0) ||| code.setWidth 32

/-- `ST.REF <- code`; the other bits keep their value. -/
def setRef (st : Word) (code : BitVec 4) : Word := (st &&& 0xFFFFFF0F) ||| (code.setWidth 32 <<< 4)

/-- Latched: `ST.ERR ≠ 0` or `ST.REF ≠ 0` (R242). -/
def State.latched (s : State) : Bool := decide (errField s.st ≠ 0) || decide (refField s.st ≠ 0)

end Machine
end Sys2Proof
end

