-- ==== Sys2Proof/Machine/Operands.lean ====
section
/-! DEFINITION. The places a command takes its data from and puts it to. A command carries immediate operands only
(decoded by 30_encoding.md R87); every memory is reached at a position that is part of the state (45_system.md R225):
the end of PK.bits, UP.pos, a buffer as a whole, a row or node by index. -/

namespace Sys2Proof.Machine

/-- How a command ends when it does not end `ok` (00_scope.md R14), or meets a tree that is no tree (log 6). -/
inductive Stop where
  | raise (k : ErrorKind)
  | refuse (r : RefuseReason)
  | stuck (f : Fault)
  deriving DecidableEq, Repr

/-- `PK_CAP` = 8 · BUF_CAP (R8). -/
def pkCap (c : Config) : Nat := 8 * c.bufCap

/-- Append to the packer, refused CAPACITY when the bits do not fit (R110, R111, R176). -/
def packerAppend (s : State) (bits : Bits) : Except Stop State :=
  if pkCap s.cfg < s.pkBits.length + bits.length then .error (.refuse .capacity)
  else .ok { s with pkBits := s.pkBits ++ bits }

/-- `rem`, the number of remaining bits (R130). -/
def Unpacker.rem (u : Unpacker) : Nat := u.bits.length - u.pos

/-- `UP.bits[UP.pos ..< UP.pos + n]`. -/
def Unpacker.slice (u : Unpacker) (n : Nat) : Bits := (u.bits.drop u.pos).take n

/-- `up_peek(n)` (R130): fails without a partial result when fewer than `n` bits remain. -/
def Unpacker.peek (u : Unpacker) (n : Nat) : Except Stop Bits :=
  if u.rem < n then .error (.raise .underflow) else .ok (u.slice n)

/-- `up_read(n)` (R130): the bits, and the unpacker with the cursor advanced by exactly `n`. -/
def Unpacker.read (u : Unpacker) (n : Nat) : Except Stop (Bits × Unpacker) := do
  let s ← u.peek n
  return (s, { u with pos := u.pos + n })

/-- `up_read_fixed(w)` (R130). -/
def Unpacker.readFixed (u : Unpacker) (w : Nat) : Except Stop (Nat × Unpacker) := do
  let (s, u') ← u.read w
  return (val s, u')

/-- The unpacker loaded from a byte buffer, cursor at bit 0 (R131). -/
def Unpacker.load (b : List Byte) : Unpacker := ⟨unpack b, 0⟩

/-- The byte at index `k` of BUF; a cell at or above BUF.len holds no value (R72). -/
def State.bufAt (s : State) (k : Nat) : Option Byte := s.buf[k]?

/-- The symbol at index `i` of TXT; a cell at or above TXT.len holds no value (R72). -/
def State.txtAt (s : State) (i : Nat) : Option Symbol := s.txt[i]?

/-- A byte memory as cells, in the canonical form: addresses strictly rising, one entry per cell that holds a value. -/
abbrev Memory := List Host.Cell

/-- BUF as cells: address `k` holds `BUF[k]` for `k < BUF.len`; no other address is listed or holds a value. -/
def State.bufCells (s : State) : Memory := s.buf.zipIdx.map fun p => (p.2, p.1)

/-- The canonical form of a cell list: addresses strictly rising. -/
def Memory.wf (m : Memory) : Bool := decide (m.Pairwise fun a b => a.1 < b.1)

/-- What a cell list holds at an address; an unlisted address holds no value. -/
def Memory.read (m : Memory) (a : Nat) : Option Byte := (m.find? fun c => c.1 == a).map Prod.snd

end Sys2Proof.Machine
end

