-- ==== Sys2Proof/Machine/Ops.lean ====
section
/-! DEFINITION. Operations shared by the commands: responses (30_encoding.md R88, R89), taking an error and a refusal
(60_exceptions.md R236, R240), the way back (R245: CLR and reset), emptying the working state (44_codec_sequences.md),
and the latch test that comes before everything else (R242). -/

namespace Sys2Proof.Machine

/-! ## Responses -/

/-- A response header (R88): `n` in 31:16, `code` in 7:4, `class` in 1:0, the rest zero. -/
def respHeader (cls : BitVec 2) (code : BitVec 4) (n : BitVec 16) : Word :=
  n ++ (0 : BitVec 8) ++ code ++ (0 : BitVec 2) ++ cls

/-- The `OK` response with the given payload and `n` = 0. -/
def okWords (payload : List Word) : Response := ⟨respHeader 0 0 0, payload⟩

/-- The `OK` response that carries a bit sequence (R83, R88): header `n` is its length. -/
def okBits (bits : Bits) : Response := ⟨respHeader 0 0 (BitVec.ofNat 16 bits.length), toWords bits⟩

/-- A length or count as a one-word result (R89). A length that does not fit the word gives a free value (log 7). -/
def countWord (op : Byte) (len : Nat) : Word :=
  if len < 2 ^ 32 then BitVec.ofNat 32 len else Config.overlongWord op len

/-- The response of a command that raised an error (R88, R236 (d)). -/
def errorResponse (k : ErrorKind) : Response := ⟨respHeader 1 k.code 0, []⟩

/-- The response of a refused command (R88, R240 (c)). -/
def refusedResponse (r : RefuseReason) : Response := ⟨respHeader 2 r.code 0, []⟩

/-- Hand a response to the host. -/
def State.respond (s : State) (r : Response) : State := { s with out := .response r }

/-! ## Errors and refusals -/

/-- Error entry (R236). `s` is the state before the command, with the output of a failed COMP or DECOMP already
emptied; ST.ERR gets the code, the response is ERROR, and nothing else changes. -/
def State.raiseError (s : State) (k : ErrorKind) : State :=
  { s with st := setErr s.st k.code }.respond (errorResponse k)

/-- Refusal entry (R240). `s` is the state before the command; ST.REF gets the code unless the reason is LATCHED. -/
def State.refuseCommand (s : State) (r : RefuseReason) : State :=
  { s with st := if r = RefuseReason.latched then s.st else setRef s.st r.code }.respond (refusedResponse r)

/-- The one outcome of a command (R230). `emptied` is what R236 (b) does to the output of a failed COMP or DECOMP. -/
def State.finish (s : State) (emptied : State → State) : Except Stop (State × Response) → Result
  | .ok (t, r) => .next (t.respond r)
  | .error (.raise k) => .next ((emptied s).raiseError k)
  | .error (.refuse r) => .next (s.refuseCommand r)
  | .error (.stuck f) => .fault f

/-- BUF.len <- 0: the output of a failed COMP (R236 (b)). -/
def State.emptyBuf (s : State) : State := { s with buf := [] }

/-- TXT.len <- 0: the output of a failed DECOMP (R236 (b)). -/
def State.emptyTxt (s : State) : State := { s with txt := [] }

/-- Every piece of state at its reset value (R33): the effect of reset and of CLR (R261). The parameters and the host's
waiting interactions are no state of HCC. -/
def State.cleared (s : State) : State := { State.reset with cfg := s.cfg, inbox := s.inbox }

/-- `clear_working()` (44_codec_sequences.md): packer, unpacker, tree and table empty. -/
def State.clearWorking (s : State) : State :=
  { s with pkBits := [], up := ⟨[], 0⟩, nm := [], root := none, ct := [] }

/-! ## What a delivered command runs as -/

/-- The latch test, then decoding (R242, R85): the instruction that runs, or the reason of the refusal. While latched
only the exact words of CLR and STAT run. -/
def State.select (s : State) (c : Command) : Except RefuseReason Instr :=
  if s.latched then
    if c = ⟨0, []⟩ then .ok .clr
    else if c = ⟨1, []⟩ then .ok .stat
    else .error .latched
  else decode c

end Sys2Proof.Machine
end

