-- ==== Sys2Proof/Machine/CodeTable.lean ====
section
/-! DEFINITION. The code table commands CTBLD, CTSER, CTDES, CTCODE, CTSYM (43_code_table.md R170 to R195). -/

namespace Sys2Proof.Machine

/-! ## From the tree to the table -/

/-- `walk(x, path)` (R171): the rows of the subtree at node `x`, left before right. `fuel` bounds the path; a tree's
paths pass distinct cells, so NM.count is enough. -/
def walk (nm : List Node) : Nat → Nat → Bits → Except Stop (List Row)
  | 0, _, _ => .error (.stuck .treeCycle)
  | fuel + 1, x, path =>
    match nm[x]? with
    | none => .error (.stuck .nodeWithoutValue)
    | some (.leaf sym _) => .ok [⟨sym, path⟩]
    | some (.internal l r _) => do
      let a ← walk nm fuel l (path ++ [false])
      let b ← walk nm fuel r (path ++ [true])
      return a ++ b

/-- The table of a tree; no tree gives zero rows (R171, R172). -/
def buildTable (nm : List Node) (root : Option Nat) : Except Stop (List Row) :=
  match root with
  | none => .ok []
  | some x => walk nm nm.length x []

/-- CTBLD (R171). -/
def execCtbld (s : State) : Result :=
  s.finish id do
    let ct ← buildTable s.nm s.root
    return ({ s with ct := ct }, okWords [countWord 0x40 ct.length])

/-! ## Serialisation -/

/-- The bits of one row (R176): symbol, code length, code. -/
def serialiseRow (r : Row) : Bits :=
  lsbf r.sym.toNat ordW ++ lsbf r.code.length lenW ++ r.code

/-- The bits of a table of at least one row (R176). -/
def serialise (ct : List Row) : Bits :=
  lsbf (ct.length - 1) rowsW ++ ct.flatMap serialiseRow

/-- CTSER (R176): EMPTY_TABLE before CAPACITY (60_exceptions.md R244). -/
def execCtser (s : State) : Result :=
  s.finish id do
    if s.ct = [] then throw (.refuse .emptyTable)
    let t ← packerAppend s (serialise s.ct)
    return (t, okWords [])

/-! ## Deserialisation -/

/-- `count` rows read at the cursor (R181). -/
def readRows : Nat → Unpacker → Except Stop (List Row × Unpacker)
  | 0, u => .ok ([], u)
  | count + 1, u => do
    let (sym, u1) ← u.readFixed ordW
    let (len, u2) ← u1.readFixed lenW
    let (code, u3) ← u2.read len
    let (rows, u4) ← readRows count u3
    return (⟨BitVec.ofNat 16 sym, code⟩ :: rows, u4)

/-- The table at the cursor (R181): `M`, then `M + 1` rows. -/
def readTable (u : Unpacker) : Except Stop (List Row × Unpacker) := do
  let (m, u1) ← u.readFixed rowsW
  readRows (m + 1) u1

/-- CTDES (R181). -/
def execCtdes (s : State) : Result :=
  s.finish id do
    let (ct, u) ← readTable s.up
    return ({ s with ct := ct, up := u }, okWords [countWord 0x42 ct.length])

/-! ## Lookups -/

/-- `codeFor(table, symbol)` (R186, R187): the code of the first row with the symbol. -/
def codeFor (ct : List Row) (sym : Symbol) : Except Stop Bits :=
  match ct.find? fun r => r.sym == sym with
  | some r => .ok r.code
  | none => .error (.raise .symbolNotFound)

/-- CTCODE (R186). -/
def execCtcode (sym : Symbol) (s : State) : Result :=
  s.finish id do
    let code ← codeFor s.ct sym
    return (s, okBits code)

/-- Whether a row's code equals the upcoming bits; a row longer than what remains does not match (R189, R190). -/
def Row.matchesAt (u : Unpacker) (r : Row) : Bool :=
  decide (r.code.length ≤ u.rem) && decide (u.slice r.code.length = r.code)

/-- One decoding step (R189 to R192): the first matching row in table order, its code consumed. -/
def symbolFor (ct : List Row) (u : Unpacker) : Except Stop (Symbol × Unpacker) :=
  match ct.find? (Row.matchesAt u) with
  | some r => .ok (r.sym, { u with pos := u.pos + r.code.length })
  | none => .error (.raise .noMatchingCode)

/-- CTSYM (R189). -/
def execCtsym (s : State) : Result :=
  s.finish id do
    let (sym, u) ← symbolFor s.ct s.up
    return ({ s with up := u }, okWords [sym.setWidth 32])

end Sys2Proof.Machine
end

