-- ==== Sys2Proof/Machine/Packer.lean ====
section
/-! DEFINITION. The bit packer commands PKB, PKF, PKFIN (40_bit_packer.md R110 to R112). -/

namespace Sys2Proof.Machine

/-- PKB (R110). -/
def execPkb (bits : Bits) (s : State) : Result :=
  s.finish id do
    let t ← packerAppend s bits
    return (t, okWords [])

/-- PKF (R111): the low `width` bits of the value, least significant first. -/
def execPkf (value : Word) (width : BitVec 8) (s : State) : Result :=
  s.finish id do
    let t ← packerAppend s (lsbf value.toNat width.toNat)
    return (t, okWords [])

/-- PKFIN (R112): BUF becomes `pack(PK.bits)`; the packer keeps its bits (R115). -/
def execPkfin (s : State) : Result :=
  let b := pack s.pkBits
  .next ({ s with buf := b }.respond (okWords [countWord 0x12 b.length]))

end Sys2Proof.Machine
end

