-- ==== Sys2Proof/Machine/TreeBuilder.lean ====
section
/-! DEFINITION. The Huffman tree builder TBLD (42_tree_builder.md R150 to R163). -/

namespace Sys2Proof.Machine

/-- Add one occurrence of a symbol to a frequency count kept in first-occurrence order (R152). -/
def countSymbol (x : Symbol) : List (Symbol × Nat) → List (Symbol × Nat)
  | [] => [(x, 1)]
  | (y, c) :: rest => if y = x then (y, c + 1) :: rest else (y, c) :: countSymbol x rest

/-- `count(t)`: symbol and occurrence count, in order of first occurrence (R152). -/
def frequencies (t : List Symbol) : List (Symbol × Nat) :=
  t.foldl (fun fq x => countSymbol x fq) []

/-- An entry of the working collection: a node id and its weight (R154; scratch, R30). -/
structure Entry where
  weight : Nat
  id : Nat
  deriving DecidableEq, Repr

/-- The order of R155: smaller weight first, of equal weights the older node. -/
def Entry.before (a b : Entry) : Bool :=
  decide (a.weight < b.weight) || (decide (a.weight = b.weight) && decide (a.id < b.id))

/-- `select_min` and the removal of what it selects (R155): the least entry and the collection without it. -/
def takeMin : List Entry → Option (Entry × List Entry)
  | [] => none
  | e :: es =>
    match takeMin es with
    | none => some (e, [])
    | some (m, rest) => if e.before m then some (e, es) else some (m, e :: rest)

/-- The merges of step 4 (R155, R156). The first removed is the left child, the second the right; the new node's id
is its cell's index. `fuel` bounds the number of merges. -/
def mergeLoop : Nat → List Node → List Entry → List Node × List Entry
  | 0, nm, wc => (nm, wc)
  | fuel + 1, nm, wc =>
    match takeMin wc with
    | none => (nm, wc)
    | some (a, wc1) =>
      match takeMin wc1 with
      | none => (nm, wc)
      | some (b, wc2) =>
        mergeLoop fuel (nm ++ [.internal a.id b.id (a.weight + b.weight)])
          (⟨a.weight + b.weight, nm.length⟩ :: wc2)

/-- The leaves of step 2 (R153). -/
def leavesOf (fq : List (Symbol × Nat)) : List Node := fq.map fun p => .leaf p.1 p.2

/-- The working collection of step 3 (R154). -/
def entriesOf (fq : List (Symbol × Nat)) : List Entry := fq.zipIdx.map fun p => ⟨p.1.2, p.2⟩

/-- NM and ROOT for a text (R151). A text of `k` distinct symbols takes `k − 1` merges (R157). -/
def buildTree (t : List Symbol) : List Node × Option Nat :=
  let fq := frequencies t
  let (nm, wc) := mergeLoop (fq.length - 1) (leavesOf fq) (entriesOf fq)
  (nm, wc.head?.map Entry.id)

/-- TBLD (R151). -/
def execTbld (s : State) : Result :=
  let (nm, root) := buildTree s.txt
  .next ({ s with nm := nm, root := root }.respond (okWords [countWord 0x30 nm.length]))

end Sys2Proof.Machine
end

