-- ==== Sys2Proof/Machine/Sequencer.lean ====
section
/-! DEFINITION. The sequencer commands COMP and DECOMP (44_codec_sequences.md R200 to R213). -/

namespace Sys2Proof.Machine

/-- The codes of a text's symbols, in order (the loop of R200). -/
def encodeText (ct : List Row) : List Symbol → Except Stop Bits
  | [] => .ok []
  | x :: xs => do
    let c ← codeFor ct x
    let rest ← encodeText ct xs
    return c ++ rest

/-- The bit stream COMP builds for a text (R200, R59): the count, and for a text that is not empty the table and the
codes; the empty text has the count alone (R201). -/
def artifactBits (t : List Symbol) : Except Stop Bits := do
  let (nm, root) := buildTree t
  let ct ← buildTable nm root
  if t = [] then
    return lsbf t.length cntW
  else
    let codes ← encodeText ct t
    return lsbf t.length cntW ++ serialise ct ++ codes

/-- COMP (R200, R202): the working state starts and ends empty; on a refusal nothing changes. -/
def execComp (s : State) : Result :=
  s.finish State.emptyBuf do
    let bits ← artifactBits s.txt
    if pkCap s.cfg < bits.length then throw (.refuse .capacity)
    let b := pack bits
    return ({ s.clearWorking with buf := b }, okWords [countWord 0x50 b.length])

/-- `count` symbols decoded at the cursor (the loop of R205). -/
def decodeText (ct : List Row) : Nat → Unpacker → Except Stop (List Symbol)
  | 0, _ => .ok []
  | count + 1, u => do
    let (x, u1) ← symbolFor ct u
    let xs ← decodeText ct count u1
    return x :: xs

/-- The text of an artifact (R205 to R208): the count; nothing more when it is 0; CAPACITY before the table. -/
def artifactText (txtCap : Nat) (b : List Byte) : Except Stop (List Symbol) := do
  let (n, u) ← (Unpacker.load b).readFixed cntW
  if n = 0 then
    return []
  else if txtCap < n then
    throw (.refuse .capacity)
  else
    let (ct, u1) ← readTable u
    decodeText ct n u1

/-- DECOMP (R205). -/
def execDecomp (s : State) : Result :=
  s.finish State.emptyTxt do
    let t ← artifactText s.cfg.txtCap s.buf
    return ({ s.clearWorking with txt := t }, okWords [countWord 0x51 t.length])

end Sys2Proof.Machine
end

