-- ==== Sys2Proof/Machine/System.lean ====
section
/-! DEFINITION. The system commands CLR and STAT (45_system.md R220, R222). -/

namespace Sys2Proof.Machine

/-- CLR (R220): every piece of state at its reset value. -/
def execClr (s : State) : Result := .next (s.cleared.respond (okWords []))

/-- STAT (R222): reads ST, changes nothing. -/
def execStat (s : State) : Result := .next (s.respond (okWords [s.st]))

end Sys2Proof.Machine
end

