-- ==== Sys2Proof/Machine/Unpacker.lean ====
section
/-! DEFINITION. The bit unpacker commands UPLD, UPRF, UPPK, UPRB (41_bit_unpacker.md R131, R133 to R135). -/

namespace Sys2Proof.Machine

/-- UPLD (R131). Its result word is the bit count modulo 2^32 (30_encoding.md R89). -/
def execUpld (s : State) : Result :=
  let u := Unpacker.load s.buf
  .next ({ s with up := u }.respond (okWords [BitVec.ofNat 32 u.bits.length]))

/-- UPRF (R133). -/
def execUprf (width : BitVec 8) (s : State) : Result :=
  s.finish id do
    let (v, u) ← s.up.readFixed width.toNat
    return ({ s with up := u }, okWords [BitVec.ofNat 32 v])

/-- UPPK (R134): consumes nothing. -/
def execUppk (n : BitVec 16) (s : State) : Result :=
  s.finish id do
    let bits ← s.up.peek n.toNat
    return (s, okBits bits)

/-- UPRB (R135). -/
def execUprb (n : BitVec 16) (s : State) : Result :=
  s.finish id do
    let (bits, u) ← s.up.read n.toNat
    return ({ s with up := u }, okBits bits)

end Sys2Proof.Machine
end

