-- ==== Sys2Proof/Machine/Dispatch.lean ====
section
/-! DEFINITION. One arm per command: a decoded command that passed the latch test is executed here. -/

namespace Sys2Proof.Machine

def exec (i : Instr) (s : State) : Host.Outcome State Fault Refusal :=
  match i with
  | .clr => Sys2Proof.Machine.execClr s
  | .stat => Sys2Proof.Machine.execStat s
  | .pkb bits => Sys2Proof.Machine.execPkb bits s
  | .pkf value width => Sys2Proof.Machine.execPkf value width s
  | .pkfin => Sys2Proof.Machine.execPkfin s
  | .upld => Sys2Proof.Machine.execUpld s
  | .uprf width => Sys2Proof.Machine.execUprf width s
  | .uppk n => Sys2Proof.Machine.execUppk n s
  | .uprb n => Sys2Proof.Machine.execUprb n s
  | .tbld => Sys2Proof.Machine.execTbld s
  | .ctbld => Sys2Proof.Machine.execCtbld s
  | .ctser => Sys2Proof.Machine.execCtser s
  | .ctdes => Sys2Proof.Machine.execCtdes s
  | .ctcode sym => Sys2Proof.Machine.execCtcode sym s
  | .ctsym => Sys2Proof.Machine.execCtsym s
  | .comp => Sys2Proof.Machine.execComp s
  | .decomp => Sys2Proof.Machine.execDecomp s

end Sys2Proof.Machine
end

