-- ==== Sys2Proof/Machine/HostPort.lean ====
section
/-! DEFINITION. The host interactions other than commands (20_memory.md R69 to R73) and the directives that stand for
them in the spec's programs (30_encoding.md R93). -/

namespace Sys2Proof.Machine

/-- `HostWriteTxt(s)` (R69, R71): replaces the whole text. A text longer than TXT_CAP is not possible. -/
def State.hostWriteTxt (s : State) (t : List Symbol) : Result :=
  if t.length ≤ s.cfg.txtCap then .next { s with txt := t, out := .nothing }
  else .refused .hostTextOverCapacity

/-- `HostReadTxt()` (R69): exactly the cells below TXT.len. -/
def State.hostReadTxt (s : State) : Result := .next { s with out := .text s.txt }

/-- `HostWriteBuf(b)` (R69, R71): replaces the whole byte buffer. -/
def State.hostWriteBuf (s : State) (b : List Byte) : Result :=
  if b.length ≤ s.cfg.bufCap then .next { s with buf := b, out := .nothing }
  else .refused .hostBytesOverCapacity

/-- `HostReadBuf()` (R69): exactly the cells below BUF.len. -/
def State.hostReadBuf (s : State) : Result := .next { s with out := .bytes s.buf }

/-- Reset between commands (R69, R260). -/
def State.hostReset (s : State) : Result := .next s.cleared

/-- Nothing waits: HCC holds its state (R255, R262); the step hands nothing back. -/
def State.idle (s : State) : Result := .next { s with out := .nothing }

/-- `.text "..."` (R93): HostWriteTxt of the code points; none when one is above 65535, which the host must refuse
itself (R71). -/
def HostAct.ofChars (cs : List Char) : Option HostAct :=
  if cs.all fun c => decide (c.toNat ≤ 65535) then
    some (.writeTxt (cs.map fun c => BitVec.ofNat 16 c.toNat))
  else none

/-- `.syms` (R93): HostWriteTxt of the listed numbers; none when one is above 65535. -/
def HostAct.ofSyms (ns : List Nat) : Option HostAct :=
  if ns.all fun n => decide (n ≤ 65535) then some (.writeTxt (ns.map (BitVec.ofNat 16))) else none

/-- `.buf` (R93): HostWriteBuf of the listed bytes. -/
def HostAct.ofBytes (b : List Byte) : HostAct := .writeBuf b

end Sys2Proof.Machine
end

