-- ==== Sys2Proof/Machine/Step.lean ====
section
/-! DEFINITION. One step of HCC: the next host interaction is taken and carried out whole (00_scope.md R6,
20_memory.md R64, R69). -/

namespace Sys2Proof.Machine

/-- A command the host issues: the latch test and decoding, then execution or the refusal (60_exceptions.md R242). -/
def issue (c : Command) (s : State) : Host.Outcome State Fault Refusal :=
  match s.select c with
  | .ok i => exec i s
  | .error r => .next (s.refuseCommand r)

/-- Take the oldest waiting interaction; with none waiting HCC holds its state (R255, R262). -/
def step (s : State) : Host.Outcome State Fault Refusal :=
  match s.inbox with
  | [] => s.idle
  | .issue c :: rest => issue c { s with inbox := rest }
  | .writeTxt t :: rest => State.hostWriteTxt { s with inbox := rest } t
  | .readTxt :: rest => State.hostReadTxt { s with inbox := rest }
  | .writeBuf b :: rest => State.hostWriteBuf { s with inbox := rest } b
  | .readBuf :: rest => State.hostReadBuf { s with inbox := rest }
  | .reset :: rest => State.hostReset { s with inbox := rest }

/-- The command whose bits are `w` as the next interaction HCC takes: HCC fetches nothing, the host delivers every
command (20_memory.md R67; log 10). -/
def State.withFetchWord (s : State) (nbits w : Nat) : State :=
  { s with inbox := .issue (commandOfNat nbits w) :: s.inbox }

end Sys2Proof.Machine
end

