-- ==== Sys2Proof/Machine/Run.lean ====
section
/-! DEFINITION. Runs and how they end (70_reset_and_hazards.md R269). -/

namespace Sys2Proof.Machine

/-- `class` of a response, bits 1:0 of its header (30_encoding.md R88); other hand-backs have none. -/
def HostOut.responseClass? : HostOut → Option (BitVec 2)
  | .response r => some (r.header.extractLsb' 0 2)
  | .nothing => none
  | .text _ => none
  | .bytes _ => none

/-- A response of class `ERROR` or `REFUSED` (R88). -/
def HostOut.failed (o : HostOut) : Bool := o.responseClass? == some 1 || o.responseClass? == some 2

/-- The start of a run (R269): the reset state of an instance, and the host's interactions, oldest first. -/
def State.starting (cfg : Config) (acts : List HostAct) : State := { State.reset with cfg := cfg, inbox := acts }

/-- `n` steps: what each hands back, in order, and the state after them; none where the model stops. -/
def State.steps : Nat → State → Option (List HostOut × State)
  | 0, s => some ([], s)
  | n + 1, s =>
    match step s with
    | .next t => (State.steps n t).map fun p => (t.out :: p.1, p.2)
    | .fault _ => none
    | .refused _ => none

/-- A run (R269): a finite sequence of host interactions from the reset state, all of them carried out. -/
def run (cfg : Config) (acts : List HostAct) : Option (List HostOut × State) :=
  (State.starting cfg acts).steps acts.length

/-- The CLR command, which is this header and payload alone (45_system.md R220), or a reset. -/
def HostAct.clears (a : HostAct) : Bool := a == .reset || a == .issue ⟨0, []⟩

/-- Whether every command the host has issued has had its response, so that the run has ended (R269). -/
def State.ended (s : State) : Bool :=
  s.inbox.all fun a =>
    match a with
    | .issue _ => false
    | .writeTxt _ => true
    | .readTxt => true
    | .writeBuf _ => true
    | .readBuf => true
    | .reset => true

/-- A run ended well (R269): it has ended, and no response in it had class `ERROR` or `REFUSED`. -/
def runEndedWell (cfg : Config) (acts : List HostAct) : Bool :=
  match run cfg acts with
  | some (outs, t) => t.ended && outs.all fun o => !o.failed
  | none => false

end Sys2Proof.Machine
end

