-- ==== Sys2Proof/Safety.lean ====
section
/-! DEFINITION. What claims rest on: the invariants of HCC (10_state.md R28, R32), what the host can hand over
(20_memory.md R71), and when a step or a run is safe (60_exceptions.md R241, 70_reset_and_hazards.md R269). -/

namespace Sys2Proof.Machine

/-- The child ids of a node. -/
def Node.children : Node → List Nat
  | .leaf _ _ => []
  | .internal l r _ => [l, r]

/-- The symbol of a leaf. -/
def Node.symbol? : Node → Option Symbol
  | .leaf sym _ => some sym
  | .internal _ _ _ => none

/-- The weight at a node id; 0 where there is no cell. -/
def weightAt (nm : List Node) (x : Nat) : Nat := (nm[x]?.map Node.weight).getD 0

/-- A tree of `k ≥ 1` leaves as R28 describes it: `2k − 1` cells; cells below `k` are leaves with pairwise distinct
symbols; the others are internal, with children of smaller id and the sum of their weights; every cell but ROOT = `2k − 2`
is the child of exactly one internal cell; every weight fits `WT_W` = 32 bits. -/
structure TreeOf (k : Nat) (nm : List Node) (root : Option Nat) : Prop where
  nonempty : 1 ≤ k
  count : nm.length = 2 * k - 1
  top : root = some (2 * k - 2)
  leaves : ∀ x, x < k → ∃ sym w, nm[x]? = some (.leaf sym w)
  distinct : (nm.filterMap Node.symbol?).Nodup
  internals : ∀ x, k ≤ x → x < 2 * k - 1 → ∃ l r, nm[x]? = some (.internal l r (weightAt nm l + weightAt nm r)) ∧ l < x ∧ r < x
  parents : (nm.flatMap Node.children).Perm (List.range (2 * k - 2))
  widths : ∀ nd ∈ nm, nd.weight < 2 ^ 32

/-- The tree state is legal (R28): no tree and no cells, or a tree of some number of leaves. -/
def TreeOk (nm : List Node) (root : Option Nat) : Prop := (nm = [] ∧ root = none) ∨ ∃ k, TreeOf k nm root

/-- A code table that fits the format (R29). -/
def TableOk (ct : List Row) : Prop := ct.length ≤ rowsMax ∧ ∀ r ∈ ct, r.code.length ≤ lenMax

/-- The invariants of R32. The last field is the consequence R242 draws from the latch. -/
structure State.Inv (s : State) : Prop where
  params : s.cfg.ok = true
  packer : s.pkBits.length ≤ 8 * s.cfg.bufCap
  unpackerBytes : s.up.bits.length % 8 = 0
  unpackerCap : s.up.bits.length ≤ 8 * s.cfg.bufCap
  cursor : s.up.pos ≤ s.up.bits.length
  text : s.txt.length ≤ s.cfg.txtCap
  bytes : s.buf.length ≤ s.cfg.bufCap
  table : TableOk s.ct
  tree : TreeOk s.nm s.root
  reserved : s.st.extractLsb' 8 24 = 0
  errLegal : (errField s.st).toNat ≤ 3
  refLegal : (refField s.st).toNat ≤ 4
  oneFailure : errField s.st = 0 ∨ refField s.st = 0

/-- What the host can hand over at all (R71). -/
def HostAct.possible (cfg : Config) : HostAct → Bool
  | .issue _ => true
  | .writeTxt t => decide (t.length ≤ cfg.txtCap)
  | .readTxt => true
  | .writeBuf b => decide (b.length ≤ cfg.bufCap)
  | .readBuf => true
  | .reset => true

/-- A step is safe when the model goes on. -/
def State.Safe (s : State) : Prop := ∃ t, step s = .next t

/-- A run is safe when the model goes on to its end (R269). -/
def SafeRun (cfg : Config) (acts : List HostAct) : Prop := ∃ r, run cfg acts = some r

end Sys2Proof.Machine
end

