-- ==== Sys2Proof/Certificates/Slice0/Obligations.lean ====
section
/-! DEFINITION. The statements for the provers. Results are written with the notions of `Sys2Proof.Spec` below, which
restate the spec's own words (response words, fields, artifact layout) and do not call the model's meanings. -/

namespace Sys2Proof.Spec

open Sys2Proof.Machine

/-- An `OK` response without result bits: header `0x00000000` (R88). -/
def okOut (payload : List Word) : HostOut := .response ⟨0x00000000, payload⟩

/-- An `OK` response of UPPK, UPRB, CTCODE: the number of bits in 31:16, the bits as the payload (R88, R83). -/
def bitsOut (b : Bits) : HostOut := .response ⟨BitVec.ofNat 32 (65536 * b.length), toWords b⟩

/-- An `ERROR` response with a code (R88). -/
def errOut (code : Nat) : HostOut := .response ⟨BitVec.ofNat 32 (1 + 16 * code), []⟩

/-- A `REFUSED` response with a code (R88). -/
def refOut (code : Nat) : HostOut := .response ⟨BitVec.ofNat 32 (2 + 16 * code), []⟩

/-- `bit(v, i) = (v div 2^i) mod 2` (R10). -/
def bit (v i : Nat) : Bool := decide (v / 2 ^ i % 2 = 1)

/-- A number as a field of `w` bits, bit 0 first (R12, R56). -/
def field (v w : Nat) : Bits := (List.range w).map (bit v)

/-- One serialised row: symbol, code length, code (R59). -/
def rowBits (r : Row) : Bits := field r.sym.toNat 16 ++ field r.code.length 16 ++ r.code

/-- A serialised table: row count minus one, then the rows in order (R59). -/
def tableBits (ct : List Row) : Bits := field (ct.length - 1) 16 ++ ct.flatMap rowBits

/-- A table CTSER can write and CTDES can read: 1 to 65536 rows, codes of at most 65535 bits (R62). -/
def Serialisable (ct : List Row) : Prop := ct ≠ [] ∧ TableOk ct

/-- The code a table gives a symbol: that of the first row with it (R187). -/
def codeOf (ct : List Row) (x : Symbol) : Bits := ((ct.find? fun r => r.sym == x).map Row.code).getD []

/-- The artifact's bit stream for a text and its table (R59, R60). -/
def artifact (t : List Symbol) (ct : List Row) : Bits :=
  if t = [] then field 0 32 else field t.length 32 ++ tableBits ct ++ t.flatMap (codeOf ct)

/-- The length of the artifact in bits (R61). -/
def artifactLength (t : List Symbol) (ct : List Row) : Nat :=
  if t = [] then 32
  else 32 + 16 + (ct.map fun r => 32 + r.code.length).sum + (t.map fun x => (codeOf ct x).length).sum

/-- `rest` decodes to the symbols `xs`: at each, the first row in table order whose code the bits begin with (R189, R192). -/
inductive DecodesTo (ct : List Row) : Bits → List Symbol → Prop where
  | done (rest : Bits) : DecodesTo ct rest []
  | symbol (before after : List Row) (r : Row) (tail : Bits) (xs : List Symbol)
      (table : ct = before ++ r :: after) (first : ∀ q ∈ before, ¬ q.code <+: r.code ++ tail)
      (more : DecodesTo ct tail xs) : DecodesTo ct (r.code ++ tail) (r.sym :: xs)

/-- The node reached from node `x` along a path, 0 left and 1 right (R170). -/
def follow (nm : List Node) : Nat → Bits → Option Node
  | x, [] => nm[x]?
  | x, b :: bs =>
    match nm[x]? with
    | some (.internal l r _) => follow nm (if b then r else l) bs
    | _ => none

/-- The selection order of R155 on node ids. -/
def Lighter (nm : List Node) (a b : Nat) : Prop :=
  weightAt nm a < weightAt nm b ∨ (weightAt nm a = weightAt nm b ∧ a < b)

/-- The commands of a list one after the other, as long as the machine goes on. -/
def execAll : List Instr → State → Result
  | [], s => .next s
  | i :: is, s =>
    match exec i s with
    | .next t => execAll is t
    | .fault f => .fault f
    | .refused r => .refused r

/-- The same, with what each command hands back. -/
def execOuts : List Instr → State → Option (List HostOut × State)
  | [], s => some ([], s)
  | i :: is, s =>
    match exec i s with
    | .next t => (execOuts is t).map fun p => (t.out :: p.1, p.2)
    | _ => none

/-- The bits that remain in the unpacker (R25). -/
def remaining (s : State) : Bits := s.up.bits.drop s.up.pos

/-- Everything but ST, TXT and BUF at its reset value (`clear_working()`, 44_codec_sequences.md). -/
def working (s : State) : Bits × Bits × Nat × List Node × Option Nat × List Row :=
  (s.pkBits, s.up.bits, s.up.pos, s.nm, s.root, s.ct)

/-- The working state empty. -/
def emptyWorking : Bits × Bits × Nat × List Node × Option Nat × List Row := ([], [], 0, [], none, [])

/-- The class of a response (R88), 3 where there is none. -/
def classOf : HostOut → Nat
  | .response r => r.header.toNat % 4
  | _ => 3

/-- The commands R20 lists as writing PK.bits. -/
def writesPk : Instr → Bool
  | .pkb _ | .pkf _ _ | .ctser | .comp | .decomp | .clr => true
  | _ => false

/-- The commands R20 lists as writing UP.bits. -/
def writesUpBits : Instr → Bool
  | .upld | .comp | .decomp | .clr => true
  | _ => false

/-- The commands R20 lists as writing UP.pos. -/
def writesUpPos : Instr → Bool
  | .upld | .uprf _ | .uprb _ | .ctdes | .ctsym | .comp | .decomp | .clr => true
  | _ => false

/-- The commands R20 lists as writing TXT or TXT.len. -/
def writesTxt : Instr → Bool
  | .decomp | .clr => true
  | _ => false

/-- The commands R20 lists as writing BUF or BUF.len. -/
def writesBuf : Instr → Bool
  | .pkfin | .comp | .clr => true
  | _ => false

/-- The commands R20 lists as writing the tree. -/
def writesTree : Instr → Bool
  | .tbld | .comp | .decomp | .clr => true
  | _ => false

/-- The commands R20 lists as writing CT. -/
def writesCt : Instr → Bool
  | .ctbld | .ctdes | .comp | .decomp | .clr => true
  | _ => false

end Sys2Proof.Spec

open Sys2Proof Sys2Proof.Machine Sys2Proof.Spec

/-! ## Encoding and decoding (30_encoding.md) -/

/-- Decoding an encoded well-formed command gives it back, every operand at every value (R84, R87, R83). -/
def Obligations.DecodeInvertsEncode : Prop :=
  ∀ i : Instr, i.wellFormed = true → decode (encode i) = .ok i

/-- Every header and payload that decodes is the encoding of the command it decodes to: no word has two readings (R84, R85). -/
def Obligations.EncodeInvertsDecode : Prop :=
  ∀ (c : Command) (i : Instr), decode c = .ok i → i.wellFormed = true ∧ encode i = c

/-- A command that decodes has a header that selects its own row of the opcode table and no other (R84). -/
def Obligations.DecodedHeaderSelectsExactlyItsRow : Prop :=
  ∀ (c : Command) (i : Instr), decode c = .ok i →
    ∃ mask pattern, rowsSelected c.header = [(i.mnemonic, mask, pattern)]

/-- What decoding refuses and with which reason (R85, R90): BAD_OPCODE exactly for a low byte that is in no row of the table;
BAD_OPERAND exactly for a known opcode with a field, width, payload length or unused payload bit out of order; nothing else. -/
def Obligations.DecodeRefusesExactlyBadEncodings : Prop :=
  ∀ c : Command,
    (decode c = .error .badOpcode ↔ ∀ r ∈ opTable, opField c.header ≠ r.2.2.extractLsb' 0 8) ∧
    (decode c = .error .badOperand ↔ ∃ f, formatOf (opField c.header) = some f ∧
      ((f ∈ [Format.Z, .N, .B, .S] ∧ wField c.header ≠ 0) ∨
       (f ∈ [Format.Z, .W, .V] ∧ nField c.header ≠ 0) ∨
       (f ∈ [Format.W, .V] ∧ 32 < (wField c.header).toNat) ∨
       c.payload.length ≠ (if f = .V then 1 else if f = .B then ((nField c.header).toNat + 31) / 32 else 0) ∨
       (f = .B ∧ (nField c.header).toNat % 32 ≠ 0 ∧
         (c.payload.getLastD 0).toNat / 2 ^ ((nField c.header).toNat % 32) ≠ 0))) ∧
    (∀ r, decode c = .error r → r = .badOpcode ∨ r = .badOperand)

/-- The command words written out in 30_encoding.md R94 and 95_test_vectors.md V5 and V13 to V20 decode as they say there. -/
def Obligations.ListedWordsDecodeAsListed : Prop :=
  decode ⟨0x00002011, [0x00000007]⟩ = .ok (.pkf 7 32) ∧
  decode ⟨0x00000311, [0x00000005]⟩ = .ok (.pkf 5 3) ∧
  decode ⟨0x00030010, [0x00000003]⟩ = .ok (.pkb [true, true, false]) ∧
  decode ⟨0x00000010, []⟩ = .ok (.pkb []) ∧
  decode ⟨0x00210010, [0xFFFFFFFF, 0x00000001]⟩ = .ok (.pkb (List.replicate 33 true)) ∧
  decode ⟨0x00001021, []⟩ = .ok (.uprf 16) ∧
  decode ⟨0x00020022, []⟩ = .ok (.uppk 2) ∧
  decode ⟨0xFFFF0023, []⟩ = .ok (.uprb 65535) ∧
  decode ⟨0x00630043, []⟩ = .ok (.ctcode 0x63) ∧
  decode ⟨0xFFFF0043, []⟩ = .ok (.ctcode 0xFFFF) ∧
  decode ⟨0x00000050, []⟩ = .ok .comp ∧
  decode ⟨0x00000051, []⟩ = .ok .decomp ∧
  decode ⟨0x000000FF, []⟩ = .error .badOpcode ∧
  decode ⟨0x00000002, []⟩ = .error .badOpcode ∧
  decode ⟨0x00002111, [0x00000001]⟩ = .error .badOperand ∧
  decode ⟨0x00010012, []⟩ = .error .badOperand ∧
  decode ⟨0x00000100, []⟩ = .error .badOperand ∧
  decode ⟨0x00000112, []⟩ = .error .badOperand ∧
  decode ⟨0x00002121, []⟩ = .error .badOperand ∧
  decode ⟨0x00010010, [0x00000003]⟩ = .error .badOperand

/-- A bit sequence travels in `(n + 31) div 32` words, element `32j + i` as bit `i` of word `j`, unused positions zero (R83). -/
def Obligations.PayloadWordsCarryBitsInOrder : Prop :=
  ∀ b : Bits, (toWords b).length = (b.length + 31) / 32 ∧
    ∀ j i, j < (toWords b).length → i < 32 → ((toWords b).getD j 0).getLsbD i = b.getD (32 * j + i) false

/-! ## Steps, the latch, reset (60_exceptions.md, 45_system.md, 70_reset_and_hazards.md) -/

/-- When nothing is latched and the waiting command decodes to `i`, the step is exec of `i`; the command has been taken (R242). -/
def Obligations.StepRunsTheDecodedCommand : Prop :=
  ∀ (s : State) (c : Command) (rest : List HostAct) (i : Instr),
    s.inbox = .issue c :: rest → errField s.st = 0 → refField s.st = 0 → decode c = .ok i →
    step s = exec i { s with inbox := rest }

/-- The other cases of an issued command (R242, R240, R90): a bad encoding is refused with its reason in ST.REF and the response;
while latched the exact CLR and STAT words run and everything else is refused LATCHED without any change of state. -/
def Obligations.StepRefusesBadEncodingsAndLatchedCommands : Prop :=
  ∀ (s : State) (c : Command) (rest : List HostAct), s.inbox = .issue c :: rest →
    (s.st = 0 → decode c = .error .badOpcode →
      step s = .next { s with inbox := rest, st := 0x10, out := refOut 1 }) ∧
    (s.st = 0 → decode c = .error .badOperand →
      step s = .next { s with inbox := rest, st := 0x20, out := refOut 2 }) ∧
    (errField s.st ≠ 0 ∨ refField s.st ≠ 0 →
      (c = ⟨0, []⟩ → step s = exec .clr { s with inbox := rest }) ∧
      (c = ⟨1, []⟩ → step s = exec .stat { s with inbox := rest }) ∧
      (c ≠ ⟨0, []⟩ → c ≠ ⟨1, []⟩ → step s = .next { s with inbox := rest, out := refOut 5 }))

/-- While latched, ST changes only by CLR or reset, and then to 0 (R221, R23 "sticky"). -/
def Obligations.LatchedStatusChangesOnlyByClrOrReset : Prop :=
  ∀ (s t : State), (errField s.st ≠ 0 ∨ refField s.st ≠ 0) → step s = .next t →
    t.st = s.st ∨
    (t.st = 0 ∧ ∃ rest, s.inbox = .issue ⟨0, []⟩ :: rest ∨ s.inbox = .reset :: rest)

/-- Reset between commands and the CLR command, latched or not, give every piece of state its reset value (R33, R220, R260,
R261); the parameters and what the host has still waiting stay (log 1, log 3: model's own fields). -/
def Obligations.ResetAndClrGiveTheResetValues : Prop :=
  ∀ (s : State) (rest : List HostAct),
    (s.inbox = .reset :: rest → step s = .next ⟨s.cfg, 0, [], ⟨[], 0⟩, [], [], [], none, [], rest, .nothing⟩) ∧
    (s.inbox = .issue ⟨0, []⟩ :: rest →
      step s = .next ⟨s.cfg, 0, [], ⟨[], 0⟩, [], [], [], none, [], rest, okOut []⟩) ∧
    State.reset = ⟨State.reset.cfg, 0, [], ⟨[], 0⟩, [], [], [], none, [], [], .nothing⟩

/-- CLR answers the reset state, STAT answers ST and changes nothing, in every state (R220, R222). -/
def Obligations.ClrAndStatComplete : Prop :=
  ∀ s : State,
    exec .clr s = .next ⟨s.cfg, 0, [], ⟨[], 0⟩, [], [], [], none, [], s.inbox, okOut []⟩ ∧
    exec .stat s = .next { s with out := okOut [s.st] }

/-- The host's reads and writes (R69, R71, R72), and a step with nothing waiting (R255, R262): a write replaces the whole
content, a read hands over exactly the cells below the length, an idle step changes no state of HCC. The empty hand-back
of writes and idle steps is the model's (log 2). -/
def Obligations.HostInteractionsActOnWholeBuffers : Prop :=
  ∀ (s : State) (rest : List HostAct),
    (∀ t, s.inbox = .writeTxt t :: rest → t.length ≤ s.cfg.txtCap →
      step s = .next { s with inbox := rest, txt := t, out := .nothing }) ∧
    (∀ b, s.inbox = .writeBuf b :: rest → b.length ≤ s.cfg.bufCap →
      step s = .next { s with inbox := rest, buf := b, out := .nothing }) ∧
    (s.inbox = .readTxt :: rest → step s = .next { s with inbox := rest, out := .text s.txt }) ∧
    (s.inbox = .readBuf :: rest → step s = .next { s with inbox := rest, out := .bytes s.buf }) ∧
    (s.inbox = [] → step s = .next { s with out := .nothing })

/-! ## Invariants (10_state.md R28, R32) -/

/-- The reset state meets the invariants (R33, R32). The parameters' values in it are the model's choice (log 3). -/
def Obligations.ResetMeetsTheInvariants : Prop := State.reset.Inv

/-- Every step, from every state that meets the invariants of R32, gives a state that meets them, whatever the outcome. -/
def Obligations.StepKeepsTheInvariants : Prop :=
  ∀ s t : State, s.Inv → step s = .next t → t.Inv

/-- No command is undefined in a state that meets the invariants (R264), and no step on anything the host can hand over stops
the model. -/
def Obligations.InvariantStatesNeverStop : Prop :=
  ∀ s : State, s.Inv →
    (∀ i : Instr, ∃ t, exec i s = .next t) ∧
    ((∀ a ∈ s.inbox, a.possible s.cfg = true) → s.Safe)

/-- In a state that meets the invariants, not latched means ST = 0 (R23, R242), so the statements below that assume ST = 0
are about every state in which a command other than CLR and STAT runs. -/
def Obligations.UnlatchedStatusIsZero : Prop :=
  ∀ s : State, s.Inv → errField s.st = 0 → refField s.st = 0 → s.st = 0

/-! ## What commands write (10_state.md R20, 45_system.md R225) -/

/-- The frame of every command: each piece of state changes only by the commands the table of R20 lists as its writers; every
other byte of BUF and symbol of TXT reads as before; ST changes only by CLR or when the response is not OK. -/
def Obligations.CommandsWriteOnlyWhatTheStateTableLists : Prop :=
  ∀ (i : Instr) (s t : State), exec i s = .next t →
    t.cfg = s.cfg ∧ t.inbox = s.inbox ∧
    (writesPk i = false → t.pkBits = s.pkBits) ∧
    (writesUpBits i = false → t.up.bits = s.up.bits) ∧
    (writesUpPos i = false → t.up.pos = s.up.pos) ∧
    (writesTxt i = false → ∀ a, t.txtAt a = s.txtAt a) ∧
    (writesBuf i = false → ∀ a, t.bufAt a = s.bufAt a) ∧
    (writesTree i = false → t.nm = s.nm ∧ t.root = s.root) ∧
    (writesCt i = false → t.ct = s.ct) ∧
    (i ≠ .clr → classOf t.out = 0 → t.st = s.st)

/-- Error entry and refusal entry (R236, R240): after an ERROR response ST.ERR has the code, the output of a failed COMP or DECOMP
is empty and everything else is as before; after a REFUSED response ST.REF has the code and everything else is as before. -/
def Obligations.FailedCommandsChangeOnlyStatusAndOutput : Prop :=
  ∀ (i : Instr) (s t : State), s.st = 0 → exec i s = .next t →
    classOf t.out ≤ 2 ∧
    (classOf t.out = 1 → ∃ k : ErrorKind, t = { s with
      st := BitVec.ofNat 32 k.code.toNat,
      txt := if i = .decomp then [] else s.txt,
      buf := if i = .comp then [] else s.buf,
      out := errOut k.code.toNat }) ∧
    (classOf t.out = 2 → ∃ r ∈ [RefuseReason.capacity, .emptyTable], t = { s with
      st := BitVec.ofNat 32 (16 * r.code.toNat), out := refOut r.code.toNat })

/-! ## The packer (40_bit_packer.md) -/

/-- PKB appends its bits at the end, in order, when they fit (R110). -/
def Obligations.PkbAppendsItsBits : Prop :=
  ∀ (s : State) (bits : Bits), s.pkBits.length + bits.length ≤ 8 * s.cfg.bufCap →
    exec (.pkb bits) s = .next { s with pkBits := s.pkBits ++ bits, out := okOut [] }

/-- PKF appends bits 0 to width − 1 of its value, in that order, when they fit (R111). -/
def Obligations.PkfAppendsTheLowBits : Prop :=
  ∀ (s : State) (value : Word) (width : BitVec 8), width.toNat ≤ 32 →
    s.pkBits.length + width.toNat ≤ 8 * s.cfg.bufCap →
    exec (.pkf value width) s =
      .next { s with pkBits := s.pkBits ++ field value.toNat width.toNat, out := okOut [] }

/-- An append that does not fit is refused CAPACITY and appends nothing (R110, R111, R176). -/
def Obligations.AppendsBeyondCapacityAreRefused : Prop :=
  ∀ s : State, s.st = 0 →
    (∀ bits : Bits, 8 * s.cfg.bufCap < s.pkBits.length + bits.length →
      exec (.pkb bits) s = .next { s with st := 0x30, out := refOut 3 }) ∧
    (∀ (value : Word) (width : BitVec 8), 8 * s.cfg.bufCap < s.pkBits.length + width.toNat →
      exec (.pkf value width) s = .next { s with st := 0x30, out := refOut 3 }) ∧
    (s.ct ≠ [] → 8 * s.cfg.bufCap < s.pkBits.length + (16 + (s.ct.map fun r => 32 + r.code.length).sum) →
      exec .ctser s = .next { s with st := 0x30, out := refOut 3 })

/-- PKFIN writes `(len + 7) div 8` bytes, bit `i` of byte `k` being stream bit `8k + i` or 0 past the end; the packer keeps its
bits; the response word is the byte count where that fits a word (R112, R53, R52). -/
def Obligations.PkfinPacksTheStreamIntoBytes : Prop :=
  ∀ s : State, ∃ (b : List Byte) (w : Word),
    exec .pkfin s = .next { s with buf := b, out := okOut [w] } ∧
    b.length = (s.pkBits.length + 7) / 8 ∧
    (∀ k i, k < b.length → i < 8 → (b.getD k 0).getLsbD i = s.pkBits.getD (8 * k + i) false) ∧
    (b.length < 2 ^ 32 → w = BitVec.ofNat 32 b.length)

/-- Unpacking packed bits gives them back followed by the zero padding; packing unpacked bytes gives them back (R55). -/
def Obligations.PackAndUnpackAreInverse : Prop :=
  (∀ s : Bits, unpack (pack s) = s ++ List.replicate (8 * ((s.length + 7) / 8) - s.length) false) ∧
  (∀ b : List Byte, pack (unpack b) = b)

/-- Two appends are one (R114 (a), (b), (c)): PKB then PKB is PKB of the concatenation; PKF is PKB of the field; PKF then PKF is
PKF of the combined number. -/
def Obligations.AppendsCompose : Prop :=
  (∀ (s : State) (a b : Bits), s.pkBits.length + (a ++ b).length ≤ 8 * s.cfg.bufCap →
    execAll [.pkb a, .pkb b] s = exec (.pkb (a ++ b)) s) ∧
  (∀ (s : State) (v : Word) (w : BitVec 8), exec (.pkf v w) s = exec (.pkb (field v.toNat w.toNat)) s) ∧
  (∀ (s : State) (v v' : Word) (w w' : BitVec 8), w.toNat + w'.toNat ≤ 32 → v.toNat < 2 ^ w.toNat →
    s.pkBits.length + (w.toNat + w'.toNat) ≤ 8 * s.cfg.bufCap →
    execAll [.pkf v w, .pkf v' w'] s =
      exec (.pkf (BitVec.ofNat 32 (v.toNat + v'.toNat * 2 ^ w.toNat)) (w + w')) s)

/-- PKFIN does not empty the packer: PKB s, PKFIN, PKB t, PKFIN ends with the bytes of s followed by t (R115). -/
def Obligations.PkfinKeepsThePackedStream : Prop :=
  ∀ (σ : State) (a b : Bits), σ.pkBits = [] → a.length + b.length ≤ 8 * σ.cfg.bufCap →
    ∃ τ, execAll [.pkb a, .pkfin, .pkb b, .pkfin] σ = .next τ ∧ τ.pkBits = a ++ b ∧ τ.buf = pack (a ++ b)

/-! ## The unpacker (41_bit_unpacker.md) -/

/-- UPLD: bit `8k + i` of UP.bits is bit `i` of byte `k`, cursor at 0, result `8 · BUF.len` modulo 2^32; BUF unchanged (R131, R54, R89). -/
def Obligations.UpldExpandsTheBuffer : Prop :=
  ∀ s : State, ∃ bits : Bits,
    exec .upld s = .next { s with up := ⟨bits, 0⟩, out := okOut [BitVec.ofNat 32 (8 * s.buf.length)] } ∧
    bits.length = 8 * s.buf.length ∧
    ∀ k i, k < s.buf.length → i < 8 → bits[8 * k + i]? = some ((s.buf.getD k 0).getLsbD i)

/-- UPRF returns the unsigned number of the next `width` bits, least significant first, and consumes them (R133). -/
def Obligations.UprfReadsAnUnsignedField : Prop :=
  ∀ (s : State) (width : BitVec 8), width.toNat ≤ 32 → width.toNat ≤ s.up.bits.length - s.up.pos →
    exec (.uprf width) s = .next { s with
      up := ⟨s.up.bits, s.up.pos + width.toNat⟩,
      out := okOut [BitVec.ofNat 32 (((List.range width.toNat).map fun i =>
        (s.up.bits.getD (s.up.pos + i) false).toNat * 2 ^ i).sum)] }

/-- UPPK returns the next `n` bits and consumes nothing; UPRB returns the same bits and consumes them (R134, R135). -/
def Obligations.UppkPeeksAndUprbReads : Prop :=
  ∀ (s : State) (n : BitVec 16), n.toNat ≤ s.up.bits.length - s.up.pos →
    exec (.uppk n) s = .next { s with
      out := bitsOut ((List.range n.toNat).map fun i => s.up.bits.getD (s.up.pos + i) false) } ∧
    exec (.uprb n) s = .next { s with
      up := ⟨s.up.bits, s.up.pos + n.toNat⟩,
      out := bitsOut ((List.range n.toNat).map fun i => s.up.bits.getD (s.up.pos + i) false) }

/-- A read or peek of more bits than remain raises UnderflowError and consumes nothing (R132, R232). -/
def Obligations.ShortReadsUnderflow : Prop :=
  ∀ s : State, s.st = 0 →
    (∀ width : BitVec 8, s.up.bits.length - s.up.pos < width.toNat →
      exec (.uprf width) s = .next { s with st := 1, out := errOut 1 }) ∧
    (∀ n : BitVec 16, s.up.bits.length - s.up.pos < n.toNat →
      exec (.uppk n) s = .next { s with st := 1, out := errOut 1 } ∧
      exec (.uprb n) s = .next { s with st := 1, out := errOut 1 })

/-- Reads and peeks of zero bits never fail, in any state, and move nothing (R138). -/
def Obligations.ZeroBitReadsNeverFail : Prop :=
  ∀ s : State,
    exec (.uprf 0) s = .next { s with out := okOut [0] } ∧
    exec (.uppk 0) s = .next { s with out := okOut [] } ∧
    exec (.uprb 0) s = .next { s with out := okOut [] } ∧
    s.up.peek 0 = .ok [] ∧ s.up.read 0 = .ok ([], s.up)

/-- Reads compose (R137 (a), (b)): a peek then a read return the same bits twice; two reads return what one longer read would. -/
def Obligations.UnpackerReadsCompose : Prop :=
  ∀ (s : State) (n m k : BitVec 16), k.toNat = n.toNat + m.toNat → k.toNat ≤ s.up.bits.length - s.up.pos →
    ∃ (a b : Bits) (t : State), a.length = n.toNat ∧ b.length = m.toNat ∧
      execOuts [.uppk n, .uprb n, .uprb m] s = some ([bitsOut a, bitsOut a, bitsOut b], t) ∧
      exec (.uprb k) s = .next { t with out := bitsOut (a ++ b) }

/-- What the packer holds comes back through PKFIN, UPLD and UPRB (R137 (e)). -/
def Obligations.PackedBitsAreReadBack : Prop :=
  ∀ (s : State) (n : BitVec 16), s.pkBits.length = n.toNat →
    ∃ t, execAll [.pkfin, .upld, .uprb n] s = .next t ∧ t.out = bitsOut s.pkBits

/-! ## The tree builder (42_tree_builder.md) -/

/-- The leaves of TBLD: one per distinct symbol, in order of first occurrence, with its number of occurrences; every later cell is
internal (R152, R153). -/
def Obligations.TbldSeedsLeavesInFirstOccurrenceOrder : Prop :=
  ∀ s : State, ∃ (t : State) (syms : List Symbol), exec .tbld s = .next t ∧
    syms.Nodup ∧ (∀ x, x ∈ syms ↔ x ∈ s.txt) ∧ syms.Pairwise (fun a b => s.txt.idxOf a < s.txt.idxOf b) ∧
    (∀ (j : Nat) (x : Symbol), syms[j]? = some x → t.nm[j]? = some (.leaf x (s.txt.count x))) ∧
    (∀ (j : Nat) (nd : Node), syms.length ≤ j → t.nm[j]? = some nd → ∃ l r w, nd = .internal l r w)

/-- Every merge of TBLD takes the two least nodes in the order (weight, id) among those not yet merged: no earlier cell has either as
a child, the lesser is the left child, the weight is the sum, and every other node not yet merged is greater than both (R155, R156). -/
def Obligations.TbldMergesTheTwoLightest : Prop :=
  ∀ (s t : State), exec .tbld s = .next t →
    ∀ x a b w : Nat, t.nm[x]? = some (.internal a b w) →
      a < x ∧ b < x ∧
      (∀ (y : Nat) (nd : Node), y < x → t.nm[y]? = some nd → a ∉ nd.children ∧ b ∉ nd.children) ∧
      w = weightAt t.nm a + weightAt t.nm b ∧ Lighter t.nm a b ∧
      ∀ c, c < x → c ≠ a → c ≠ b → (∀ (y : Nat) (nd : Node), y < x → t.nm[y]? = some nd → c ∉ nd.children) → Lighter t.nm b c

/-- TBLD completes in every state whose text TXT can hold: it writes a tree as R28 describes it with one leaf per distinct symbol,
the root's weight is TXT.len, the result is NM.count, and nothing else changes (R28, R151, R157, R161). -/
def Obligations.TbldBuildsATreeOfTheText : Prop :=
  ∀ s : State, s.txt.length < 2 ^ 32 → s.txt ≠ [] →
    ∃ nm root, exec .tbld s = .next { s with nm := nm, root := root, out := okOut [BitVec.ofNat 32 nm.length] } ∧
      TreeOf s.txt.dedup.length nm root ∧ weightAt nm (nm.length - 1) = s.txt.length

/-- TBLD of the empty text: no tree, ok(0) (R158). -/
def Obligations.TbldOfTheEmptyTextBuildsNoTree : Prop :=
  ∀ s : State, s.txt = [] → exec .tbld s = .next { s with nm := [], root := none, out := okOut [0] }

/-- TBLD of a text with one distinct symbol: the tree is one bare leaf (R159). -/
def Obligations.TbldOfOneSymbolBuildsABareLeaf : Prop :=
  ∀ (s : State) (x : Symbol) (n : Nat), s.txt = List.replicate (n + 1) x →
    exec .tbld s = .next { s with nm := [.leaf x (n + 1)], root := some 0, out := okOut [1] }

/-! ## The code table (43_code_table.md) -/

/-- CTBLD: the rows are exactly the leaves with the paths to them, left edge 0 and right edge 1, in order from left to right
(R170, R171). -/
def Obligations.CtbldRowsAreTheLeavesAndTheirPaths : Prop :=
  ∀ (s : State) (k root : Nat), s.root = some root → TreeOf k s.nm s.root →
    ∃ ct, exec .ctbld s = .next { s with ct := ct, out := okOut [BitVec.ofNat 32 ct.length] } ∧
      (∀ r : Row, r ∈ ct ↔ ∃ w, follow s.nm root r.code = some (Node.leaf r.sym w)) ∧
      (ct.map Row.code).Pairwise (List.Lex fun x y => x = false ∧ y = true)

/-- CTBLD with no tree writes the table of zero rows, ok(0) (R172); of a bare leaf, one row with the empty code, with which CTSYM
returns the symbol and consumes nothing and a text of that symbol has a payload of zero bits (R174). -/
def Obligations.CtbldOfNoTreeAndOfABareLeaf : Prop :=
  ∀ s : State,
    (s.root = none → exec .ctbld s = .next { s with ct := [], out := okOut [0] }) ∧
    (∀ x w, s.nm = [Node.leaf x w] → s.root = some 0 →
      exec .ctbld s = .next { s with ct := [⟨x, []⟩], out := okOut [1] }) ∧
    (∀ x, s.ct = [⟨x, []⟩] →
      exec .ctsym s = .next { s with out := okOut [BitVec.ofNat 32 x.toNat] } ∧
      ∀ n, (List.replicate n x).flatMap (codeOf s.ct) = [])

/-- The table TBLD and CTBLD make of a text that is not empty (R173): one row per distinct symbol, prefix-free, complete, and no empty
code when there are two symbols or more. -/
def Obligations.BuiltTablesArePrefixFreeAndComplete : Prop :=
  ∀ s : State, s.txt ≠ [] → s.txt.length < 2 ^ 32 → ∃ t, execAll [.tbld, .ctbld] s = .next t ∧
    t.ct.length = s.txt.dedup.length ∧ (t.ct.map Row.sym).Nodup ∧ (∀ r ∈ t.ct, r.sym ∈ s.txt) ∧
    t.ct.Pairwise (fun a b => ¬ a.code <+: b.code ∧ ¬ b.code <+: a.code) ∧
    (2 ≤ t.ct.length → ∀ r ∈ t.ct, 1 ≤ r.code.length) ∧
    (∀ bits : Bits, (∀ r ∈ t.ct, r.code.length ≤ bits.length) → ∃ r, r ∈ t.ct ∧ r.code <+: bits)

/-- CTSER appends the serialised table when it fits; the table stays (R176, R177). -/
def Obligations.CtserAppendsTheSerialisedTable : Prop :=
  ∀ s : State, s.ct ≠ [] → s.pkBits.length + (tableBits s.ct).length ≤ 8 * s.cfg.bufCap →
    exec .ctser s = .next { s with pkBits := s.pkBits ++ tableBits s.ct, out := okOut [] }

/-- CTSER of a table of zero rows is refused EMPTY_TABLE and appends nothing (R178). -/
def Obligations.CtserOfZeroRowsIsRefused : Prop :=
  ∀ s : State, s.st = 0 → s.ct = [] → exec .ctser s = .next { s with st := 0x40, out := refOut 4 }

/-- CTDES reads whatever table the next bits serialise, row for row, and leaves the cursor after it (R181, R183). -/
def Obligations.CtdesReadsTheSerialisedTable : Prop :=
  ∀ (s : State) (ct : List Row) (rest : Bits), Serialisable ct → remaining s = tableBits ct ++ rest →
    exec .ctdes s = .next { s with
      ct := ct, up := ⟨s.up.bits, s.up.pos + (tableBits ct).length⟩, out := okOut [BitVec.ofNat 32 ct.length] }

/-- CTDES raises UnderflowError when the next bits are no whole serialised table; then CT and UP.pos stay (R181, R232, R236). -/
def Obligations.CtdesUnderflowsOnACutTable : Prop :=
  ∀ s : State, s.st = 0 → (∀ ct rest, Serialisable ct → remaining s ≠ tableBits ct ++ rest) →
    exec .ctdes s = .next { s with st := 1, out := errOut 1 }

/-- CTDES reverses CTSER (R182): the table appended after `p` bits, emitted by PKFIN and loaded by UPLD, is read back once `p` bits
have been read. -/
def Obligations.CtdesReversesCtser : Prop :=
  ∀ s : State, Serialisable s.ct → s.pkBits.length + (tableBits s.ct).length ≤ 8 * s.cfg.bufCap →
    ∃ t u, execAll [.ctser, .pkfin, .upld] s = .next t ∧
      exec .ctdes { t with ct := [], up := ⟨t.up.bits, s.pkBits.length⟩ } = .next u ∧ u.ct = s.ct

/-- CTCODE returns the code of the first row with the symbol, and raises SymbolNotFoundError when there is none (R186, R187, R233). -/
def Obligations.CtcodeReturnsTheFirstRowsCode : Prop :=
  ∀ (s : State) (x : Symbol),
    (∀ before code after, s.ct = before ++ ⟨x, code⟩ :: after → (∀ q ∈ before, q.sym ≠ x) →
      exec (.ctcode x) s = .next { s with out := bitsOut code }) ∧
    (s.st = 0 → (∀ q ∈ s.ct, q.sym ≠ x) → exec (.ctcode x) s = .next { s with st := 2, out := errOut 2 })

/-- CTSYM returns the symbol of the first row whose code the remaining bits begin with and consumes that code; a row too long for
what remains is passed over; with no such row, the empty table included, NoMatchingCodeError and nothing consumed (R189 to R194, R234). -/
def Obligations.CtsymDecodesByTheFirstMatchingRow : Prop :=
  ∀ s : State,
    (∀ before r after, s.ct = before ++ r :: after → r.code <+: remaining s → (∀ q ∈ before, ¬ q.code <+: remaining s) →
      exec .ctsym s = .next { s with
        up := ⟨s.up.bits, s.up.pos + r.code.length⟩, out := okOut [BitVec.ofNat 32 r.sym.toNat] }) ∧
    (s.st = 0 → (∀ q ∈ s.ct, ¬ q.code <+: remaining s) → exec .ctsym s = .next { s with st := 3, out := errOut 3 })

/-! ## The sequencer (44_codec_sequences.md) -/

/-- COMP writes the packed artifact of the text, with the table TBLD and CTBLD make of it, and leaves the working state empty and the
text as it was, when the artifact fits (R200, R59). -/
def Obligations.CompWritesTheArtifact : Prop :=
  ∀ s : State, s.txt.length < 2 ^ 32 → ∃ t, execAll [.tbld, .ctbld] s = .next t ∧
    (artifactLength s.txt t.ct ≤ 8 * s.cfg.bufCap →
      ∃ w, exec .comp s = .next { s with
          pkBits := [], up := ⟨[], 0⟩, nm := [], root := none, ct := [],
          buf := pack (artifact s.txt t.ct), out := okOut [w] } ∧
        ((pack (artifact s.txt t.ct)).length < 2 ^ 32 →
          w = BitVec.ofNat 32 ((artifactLength s.txt t.ct + 7) / 8)))

/-- COMP is refused CAPACITY when the artifact is longer than PK_CAP bits, and then nothing but ST.REF changes (R202, R61). -/
def Obligations.CompBeyondCapacityIsRefused : Prop :=
  ∀ s t : State, s.st = 0 → s.txt.length < 2 ^ 32 → execAll [.tbld, .ctbld] s = .next t →
    8 * s.cfg.bufCap < artifactLength s.txt t.ct →
    exec .comp s = .next { s with st := 0x30, out := refOut 3 }

/-- COMP of the empty text writes four zero bytes, ok(4) (R201, R60). -/
def Obligations.CompOfTheEmptyText : Prop :=
  ∀ s : State, s.txt = [] → 4 ≤ s.cfg.bufCap →
    exec .comp s = .next { s with
      pkBits := [], up := ⟨[], 0⟩, nm := [], root := none, ct := [], buf := [0, 0, 0, 0], out := okOut [4] }

/-- COMP never ends in an error: its lookups always find the symbol (R187, R200, R233). -/
def Obligations.CompNeverRaises : Prop :=
  ∀ s : State, ∃ t, exec .comp s = .next t ∧ classOf t.out ≠ 1 ∧ errField t.st = errField s.st

/-- The result of COMP is a function of the text and the capacity alone (R19 (e), R160 (d)). -/
def Obligations.CompDependsOnTheTextAlone : Prop :=
  ∀ s s' t t' : State, s.txt = s'.txt → s.cfg = s'.cfg → exec .comp s = .next t → exec .comp s' = .next t' →
    t.out = t'.out ∧ (classOf t.out = 0 → t.buf = t'.buf)

/-- COMP leaves the same bytes as the sequence of single-unit commands R203 names, which keeps the tree, table and packer. -/
def Obligations.CompEqualsTheUnitCommands : Prop :=
  ∀ s t c : State, s.st = 0 → s.pkBits = [] → s.txt.length < 2 ^ 32 →
    execAll [.tbld, .ctbld] s = .next t → exec .comp s = .next c → classOf c.out = 0 →
    ∃ u, execAll
        (if s.txt = [] then [.pkf 0 32, .pkfin]
         else [.tbld, .ctbld, .pkf (BitVec.ofNat 32 s.txt.length) 32, .ctser] ++
           (s.txt.flatMap fun x => [.ctcode x, .pkb (codeOf t.ct x)]) ++ [.pkfin]) s = .next u ∧
      u.buf = c.buf ∧ u.st = 0 ∧ u.txt = s.txt ∧ u.pkBits = artifact s.txt t.ct ∧
      (s.txt ≠ [] → u.nm = t.nm ∧ u.root = t.root ∧ u.ct = t.ct)

/-- DECOMP: a count N, a table, and bits that decode to N symbols give those symbols as the text; bits after them are ignored; the
working state ends empty and BUF stays (R205, R208). -/
def Obligations.DecompDecodesTheArtifact : Prop :=
  ∀ (s : State) (ct : List Row) (rest : Bits) (xs : List Symbol),
    xs ≠ [] → xs.length < 2 ^ 32 → xs.length ≤ s.cfg.txtCap → Serialisable ct →
    unpack s.buf = field xs.length 32 ++ tableBits ct ++ rest → DecodesTo ct rest xs →
    exec .decomp s = .next { s with
      pkBits := [], up := ⟨[], 0⟩, nm := [], root := none, ct := [],
      txt := xs, out := okOut [BitVec.ofNat 32 xs.length] }

/-- DECOMP with the count 0 gives the empty text whatever follows (R206); with a count above TXT_CAP it is refused CAPACITY before the
table is read (R207). -/
def Obligations.DecompOfZeroAndOfTooLargeCounts : Prop :=
  ∀ (s : State) (n : Nat) (rest : Bits), n < 2 ^ 32 → unpack s.buf = field n 32 ++ rest →
    (n = 0 → exec .decomp s = .next { s with
      pkBits := [], up := ⟨[], 0⟩, nm := [], root := none, ct := [], txt := [], out := okOut [0] }) ∧
    (s.st = 0 → s.cfg.txtCap < n → exec .decomp s = .next { s with st := 0x30, out := refOut 3 })

/-- DECOMP's errors, each with TXT.len 0 and everything else as before (R205, R236, R244): no whole count or no whole table,
UnderflowError; a table but no N decodable symbols, NoMatchingCodeError. -/
def Obligations.DecompFailsByTheFirstCause : Prop :=
  ∀ s : State, s.st = 0 →
    (s.buf.length < 4 → exec .decomp s = .next { s with st := 1, txt := [], out := errOut 1 }) ∧
    (∀ n rest, 1 ≤ n → n < 2 ^ 32 → n ≤ s.cfg.txtCap → unpack s.buf = field n 32 ++ rest →
      (∀ ct tail, Serialisable ct → rest ≠ tableBits ct ++ tail) →
      exec .decomp s = .next { s with st := 1, txt := [], out := errOut 1 }) ∧
    (∀ n ct rest, 1 ≤ n → n < 2 ^ 32 → n ≤ s.cfg.txtCap → Serialisable ct →
      unpack s.buf = field n 32 ++ tableBits ct ++ rest →
      (∀ xs : List Symbol, xs.length = n → ¬ DecodesTo ct rest xs) →
      exec .decomp s = .next { s with st := 3, txt := [], out := errOut 3 })

/-- DECOMP returns the symbols that UPLD, UPRF 32, CTDES and N times CTSYM return in their responses (R209). -/
def Obligations.DecompEqualsTheUnitCommands : Prop :=
  ∀ s t : State, exec .decomp s = .next t → classOf t.out = 0 →
    ∃ (u : State) (rows : Nat), execOuts
        (if t.txt = [] then [.upld, .uprf 32]
         else [.upld, .uprf 32, .ctdes] ++ List.replicate t.txt.length .ctsym) s =
      some ((if t.txt = [] then [okOut [BitVec.ofNat 32 (8 * s.buf.length)], okOut [0]]
        else [okOut [BitVec.ofNat 32 (8 * s.buf.length)], okOut [BitVec.ofNat 32 t.txt.length], okOut [BitVec.ofNat 32 rows]] ++
          t.txt.map fun x => okOut [BitVec.ofNat 32 x.toNat]), u)

/-- Where DECOMP ends in an error, the same sequence of single-unit commands ends in the same error, every command before it
ending ok (R209). -/
def Obligations.DecompFailsWhereTheUnitCommandsFail : Prop :=
  ∀ (s t : State) (e : Nat), s.st = 0 → exec .decomp s = .next t → t.out = errOut e → e ≤ 3 →
    ∃ (n : Nat) (cmds : List Instr) (last : Instr) (u v : State),
      cmds ++ [last] <+: [.upld, .uprf 32, .ctdes] ++ List.replicate n .ctsym ∧
      (2 < cmds.length → ∃ rest, unpack s.buf = field n 32 ++ rest) ∧
      execAll cmds s = .next u ∧ u.st = 0 ∧ exec last u = .next v ∧ v.out = errOut e

/-- Round trip (R210): for every text TXT can hold whose artifact fits BUF, COMP ends ok, and DECOMP of what it wrote ends ok with the
same text. -/
def Obligations.CompThenDecompRestoresTheText : Prop :=
  ∀ s t : State, s.txt.length < 2 ^ 32 → s.txt.length ≤ s.cfg.txtCap →
    execAll [.tbld, .ctbld] s = .next t → artifactLength s.txt t.ct ≤ 8 * s.cfg.bufCap →
    ∃ c d, exec .comp s = .next c ∧ classOf c.out = 0 ∧
      exec .decomp c = .next d ∧ classOf d.out = 0 ∧ d.txt = s.txt ∧ d.buf = c.buf ∧ working d = emptyWorking

/-- Truncation is always detected (R211): DECOMP of any proper prefix, in bytes, of an artifact COMP wrote ends in UnderflowError or
NoMatchingCodeError with no text. -/
def Obligations.TruncatedArtifactsAlwaysFail : Prop :=
  ∀ (s c : State) (m : Nat), s.st = 0 → s.txt.length < 2 ^ 32 → s.txt.length ≤ s.cfg.txtCap →
    exec .comp s = .next c → classOf c.out = 0 → m < c.buf.length →
    ∃ d, exec .decomp { c with buf := c.buf.take m } = .next d ∧ d.txt = [] ∧
      ((d.st = 1 ∧ d.out = errOut 1) ∨ (d.st = 3 ∧ d.out = errOut 3))
end

