-- ==== Sys2Proof/Laws/Bits.lean ====
section
/-! SUPPORT. Laws of bit sequences: fields, numbers and cutting into groups (00_scope.md R12, 20_memory.md R53, R54). -/

namespace Sys2Proof

@[simp] theorem length_lsbf (v w : Nat) : (lsbf v w).length = w := by simp [lsbf]

theorem getElem?_lsbf (v w i : Nat) (h : i < w) : (lsbf v w)[i]? = some (v.testBit i) := by simp [lsbf, h]

theorem lsbf_succ (v w : Nat) : lsbf v (w + 1) = v.testBit 0 :: lsbf (v / 2) w := by
  simp [lsbf, List.range_succ_eq_map, Nat.testBit_succ, Function.comp_def]

/-- `val(lsbf(v, w))` keeps the low `w` bits; for `v < 2^w` it is `v` (R12). -/
theorem val_lsbf (v w : Nat) : val (lsbf v w) = v % 2 ^ w := by
  induction w generalizing v with
  | zero => simp [lsbf, val, Nat.mod_one]
  | succ w ih =>
    rw [lsbf_succ, val, ih, Nat.pow_succ', Nat.mod_mul]
    simp only [Nat.testBit_zero]
    rcases Nat.mod_two_eq_zero_or_one v with h | h <;> simp [h]

theorem val_lsbf_of_lt {v w : Nat} (h : v < 2 ^ w) : val (lsbf v w) = v := by
  rw [val_lsbf, Nat.mod_eq_of_lt h]

/-- A bit sequence is the field of its own number. -/
theorem lsbf_val (s : Bits) : lsbf (val s) s.length = s := by
  induction s with
  | nil => simp [lsbf]
  | cons b s ih =>
    rw [List.length_cons, lsbf_succ, val]
    cases b <;> simp [Nat.testBit_zero] <;> first | simpa using ih | (rw [show (1 + 2 * val s) / 2 = val s by omega]; exact ih)

theorem val_lt (s : Bits) : val s < 2 ^ s.length := by
  induction s with
  | nil => simp [val]
  | cons b s ih => cases b <;> simp [val, Nat.pow_succ] <;> omega

@[simp] theorem length_chunks (c : Nat) (s : Bits) : (chunks c s).length = (s.length + (c - 1)) / c := by
  simp [chunks]

@[simp] theorem length_pack (s : Bits) : (pack s).length = (s.length + 7) / 8 := by simp [pack]

@[simp] theorem length_toWords (s : Bits) : (toWords s).length = (s.length + 31) / 32 := by simp [toWords]

@[simp] theorem unpack_nil : unpack [] = [] := rfl

@[simp] theorem unpack_cons (x : Byte) (b : List Byte) : unpack (x :: b) = lsbf x.toNat 8 ++ unpack b := rfl

@[simp] theorem length_unpack (b : List Byte) : (unpack b).length = 8 * b.length := by
  induction b with
  | nil => rfl
  | cons x b ih => simp [ih]; omega

end Sys2Proof
end

