-- ==== Sys2Proof/Laws/Encoding.lean ====
section
/-! SUPPORT. Laws of the header word and of decoding (30_encoding.md R81, R85). -/

namespace Sys2Proof

@[simp] theorem opField_mkHeader (op w : BitVec 8) (n : BitVec 16) : opField (mkHeader op w n) = op := by
  ext i hi
  simp only [opField, mkHeader, BitVec.getElem_extractLsb', Nat.zero_add]
  rw [BitVec.getLsbD_append]
  simp [hi]

@[simp] theorem wField_mkHeader (op w : BitVec 8) (n : BitVec 16) : wField (mkHeader op w n) = w := by
  ext i hi
  simp only [wField, mkHeader, BitVec.getElem_extractLsb']
  rw [BitVec.getLsbD_append, BitVec.getLsbD_append]
  simp [hi]

@[simp] theorem nField_mkHeader (op w : BitVec 8) (n : BitVec 16) : nField (mkHeader op w n) = n := by
  ext i hi
  simp only [nField, mkHeader, BitVec.getElem_extractLsb']
  rw [BitVec.getLsbD_append, BitVec.getLsbD_append]
  simp [show ¬ 16 + i < 8 by omega, show ¬ 16 + i - 8 < 8 by omega, show 16 + i - 8 - 8 = i by omega, BitVec.getLsbD_eq_getElem hi]

/-- A header is made of its three fields. -/
theorem mkHeader_fields (h : Word) : mkHeader (opField h) (wField h) (nField h) = h := by
  ext i hi
  simp only [mkHeader, opField, wField, nField]
  rw [← BitVec.getLsbD_eq_getElem, BitVec.getLsbD_append, BitVec.getLsbD_append]
  by_cases h8 : i < 8
  · simp [h8, BitVec.getLsbD_eq_getElem hi]
  · by_cases h16 : i - 8 < 8
    · simp [h8, h16, show 8 + (i - 8) = i by omega, BitVec.getLsbD_eq_getElem hi]
    · simp [h8, h16, show i - 8 - 8 < 16 by omega, show 16 + (i - 8 - 8) = i by omega, BitVec.getLsbD_eq_getElem hi]

end Sys2Proof
end

