-- ==== Sys2Proof/Laws/Memory.lean ====
section
/-! SUPPORT. BUF as a byte memory: its cells are in the canonical form in every state, so after every operation, and
reading a cell is reading BUF (20_memory.md R50, R72). -/

namespace Sys2Proof.Machine

/-- The cells of BUF are in the canonical form whatever BUF holds. -/
theorem bufCells_wf (s : State) : Memory.wf s.bufCells = true := by
  apply decide_eq_true
  rw [State.bufCells, List.pairwise_map, List.pairwise_iff_getElem]
  intro i j hi hj hij
  simpa using hij

/-- Reading an address of the cells is reading that index of BUF; at and above BUF.len there is no value. -/
theorem bufCells_read (s : State) (a : Nat) : Memory.read s.bufCells a = s.bufAt a := by
  suffices h : ∀ (l : List Byte) (k a : Nat),
      ((((l.zipIdx k).map fun p => (p.2, p.1)).find? fun c => c.1 == a + k).map Prod.snd) = l[a]? by
    simpa [Memory.read, State.bufCells, State.bufAt] using h s.buf 0 a
  intro l
  induction l with
  | nil => intros; simp
  | cons x l ih =>
    intro k a
    cases a with
    | zero => simp [List.zipIdx_cons]
    | succ a =>
      rw [List.zipIdx_cons, List.map_cons, List.find?_cons_of_neg (by simp)]
      have := ih (k + 1) a
      rw [show a + (k + 1) = a + 1 + k by omega] at this
      simpa using this

/-- The reset state's memory is in the canonical form and lists nothing. -/
theorem bufCells_reset : State.reset.bufCells = [] := rfl

end Sys2Proof.Machine
end

