-- ==== Sys2Proof/Laws/State.lean ====
section
/-! SUPPORT. What each update of State does to each field, one lemma per field per update, true by rfl. -/

namespace Sys2Proof.Machine

/-! Hand a response to the host: only `out` changes. -/

@[simp] theorem respond_cfg (s : State) (r : Response) : (s.respond r).cfg = s.cfg := rfl
@[simp] theorem respond_st (s : State) (r : Response) : (s.respond r).st = s.st := rfl
@[simp] theorem respond_pkBits (s : State) (r : Response) : (s.respond r).pkBits = s.pkBits := rfl
@[simp] theorem respond_up (s : State) (r : Response) : (s.respond r).up = s.up := rfl
@[simp] theorem respond_txt (s : State) (r : Response) : (s.respond r).txt = s.txt := rfl
@[simp] theorem respond_buf (s : State) (r : Response) : (s.respond r).buf = s.buf := rfl
@[simp] theorem respond_nm (s : State) (r : Response) : (s.respond r).nm = s.nm := rfl
@[simp] theorem respond_root (s : State) (r : Response) : (s.respond r).root = s.root := rfl
@[simp] theorem respond_ct (s : State) (r : Response) : (s.respond r).ct = s.ct := rfl
@[simp] theorem respond_inbox (s : State) (r : Response) : (s.respond r).inbox = s.inbox := rfl
@[simp] theorem respond_out (s : State) (r : Response) : (s.respond r).out = .response r := rfl

/-! Error entry (R236): only ST and the response. -/

@[simp] theorem raiseError_cfg (s : State) (k : ErrorKind) : (s.raiseError k).cfg = s.cfg := rfl
@[simp] theorem raiseError_st (s : State) (k : ErrorKind) : (s.raiseError k).st = setErr s.st k.code := rfl
@[simp] theorem raiseError_pkBits (s : State) (k : ErrorKind) : (s.raiseError k).pkBits = s.pkBits := rfl
@[simp] theorem raiseError_up (s : State) (k : ErrorKind) : (s.raiseError k).up = s.up := rfl
@[simp] theorem raiseError_txt (s : State) (k : ErrorKind) : (s.raiseError k).txt = s.txt := rfl
@[simp] theorem raiseError_buf (s : State) (k : ErrorKind) : (s.raiseError k).buf = s.buf := rfl
@[simp] theorem raiseError_nm (s : State) (k : ErrorKind) : (s.raiseError k).nm = s.nm := rfl
@[simp] theorem raiseError_root (s : State) (k : ErrorKind) : (s.raiseError k).root = s.root := rfl
@[simp] theorem raiseError_ct (s : State) (k : ErrorKind) : (s.raiseError k).ct = s.ct := rfl
@[simp] theorem raiseError_inbox (s : State) (k : ErrorKind) : (s.raiseError k).inbox = s.inbox := rfl
@[simp] theorem raiseError_out (s : State) (k : ErrorKind) : (s.raiseError k).out = .response (errorResponse k) := rfl

/-! Refusal entry (R240): only ST and the response. -/

@[simp] theorem refuseCommand_cfg (s : State) (r : RefuseReason) : (s.refuseCommand r).cfg = s.cfg := rfl
@[simp] theorem refuseCommand_st (s : State) (r : RefuseReason) : (s.refuseCommand r).st = if r = RefuseReason.latched then s.st else setRef s.st r.code := rfl
@[simp] theorem refuseCommand_pkBits (s : State) (r : RefuseReason) : (s.refuseCommand r).pkBits = s.pkBits := rfl
@[simp] theorem refuseCommand_up (s : State) (r : RefuseReason) : (s.refuseCommand r).up = s.up := rfl
@[simp] theorem refuseCommand_txt (s : State) (r : RefuseReason) : (s.refuseCommand r).txt = s.txt := rfl
@[simp] theorem refuseCommand_buf (s : State) (r : RefuseReason) : (s.refuseCommand r).buf = s.buf := rfl
@[simp] theorem refuseCommand_nm (s : State) (r : RefuseReason) : (s.refuseCommand r).nm = s.nm := rfl
@[simp] theorem refuseCommand_root (s : State) (r : RefuseReason) : (s.refuseCommand r).root = s.root := rfl
@[simp] theorem refuseCommand_ct (s : State) (r : RefuseReason) : (s.refuseCommand r).ct = s.ct := rfl
@[simp] theorem refuseCommand_inbox (s : State) (r : RefuseReason) : (s.refuseCommand r).inbox = s.inbox := rfl
@[simp] theorem refuseCommand_out (s : State) (r : RefuseReason) : (s.refuseCommand r).out = .response (refusedResponse r) := rfl

/-! The output of a failed COMP (R236 (b)). -/

@[simp] theorem emptyBuf_cfg (s : State) : (s.emptyBuf).cfg = s.cfg := rfl
@[simp] theorem emptyBuf_st (s : State) : (s.emptyBuf).st = s.st := rfl
@[simp] theorem emptyBuf_pkBits (s : State) : (s.emptyBuf).pkBits = s.pkBits := rfl
@[simp] theorem emptyBuf_up (s : State) : (s.emptyBuf).up = s.up := rfl
@[simp] theorem emptyBuf_txt (s : State) : (s.emptyBuf).txt = s.txt := rfl
@[simp] theorem emptyBuf_buf (s : State) : (s.emptyBuf).buf = [] := rfl
@[simp] theorem emptyBuf_nm (s : State) : (s.emptyBuf).nm = s.nm := rfl
@[simp] theorem emptyBuf_root (s : State) : (s.emptyBuf).root = s.root := rfl
@[simp] theorem emptyBuf_ct (s : State) : (s.emptyBuf).ct = s.ct := rfl
@[simp] theorem emptyBuf_inbox (s : State) : (s.emptyBuf).inbox = s.inbox := rfl
@[simp] theorem emptyBuf_out (s : State) : (s.emptyBuf).out = s.out := rfl

/-! The output of a failed DECOMP (R236 (b)). -/

@[simp] theorem emptyTxt_cfg (s : State) : (s.emptyTxt).cfg = s.cfg := rfl
@[simp] theorem emptyTxt_st (s : State) : (s.emptyTxt).st = s.st := rfl
@[simp] theorem emptyTxt_pkBits (s : State) : (s.emptyTxt).pkBits = s.pkBits := rfl
@[simp] theorem emptyTxt_up (s : State) : (s.emptyTxt).up = s.up := rfl
@[simp] theorem emptyTxt_txt (s : State) : (s.emptyTxt).txt = [] := rfl
@[simp] theorem emptyTxt_buf (s : State) : (s.emptyTxt).buf = s.buf := rfl
@[simp] theorem emptyTxt_nm (s : State) : (s.emptyTxt).nm = s.nm := rfl
@[simp] theorem emptyTxt_root (s : State) : (s.emptyTxt).root = s.root := rfl
@[simp] theorem emptyTxt_ct (s : State) : (s.emptyTxt).ct = s.ct := rfl
@[simp] theorem emptyTxt_inbox (s : State) : (s.emptyTxt).inbox = s.inbox := rfl
@[simp] theorem emptyTxt_out (s : State) : (s.emptyTxt).out = s.out := rfl

/-! `clear_working()`: packer, unpacker, tree, table. -/

@[simp] theorem clearWorking_cfg (s : State) : (s.clearWorking).cfg = s.cfg := rfl
@[simp] theorem clearWorking_st (s : State) : (s.clearWorking).st = s.st := rfl
@[simp] theorem clearWorking_pkBits (s : State) : (s.clearWorking).pkBits = [] := rfl
@[simp] theorem clearWorking_up (s : State) : (s.clearWorking).up = ⟨[], 0⟩ := rfl
@[simp] theorem clearWorking_txt (s : State) : (s.clearWorking).txt = s.txt := rfl
@[simp] theorem clearWorking_buf (s : State) : (s.clearWorking).buf = s.buf := rfl
@[simp] theorem clearWorking_nm (s : State) : (s.clearWorking).nm = [] := rfl
@[simp] theorem clearWorking_root (s : State) : (s.clearWorking).root = none := rfl
@[simp] theorem clearWorking_ct (s : State) : (s.clearWorking).ct = [] := rfl
@[simp] theorem clearWorking_inbox (s : State) : (s.clearWorking).inbox = s.inbox := rfl
@[simp] theorem clearWorking_out (s : State) : (s.clearWorking).out = s.out := rfl

/-! Reset (R33, R261): everything but the parameters and the host's waiting interactions. -/

@[simp] theorem cleared_cfg (s : State) : (s.cleared).cfg = s.cfg := rfl
@[simp] theorem cleared_st (s : State) : (s.cleared).st = 0 := rfl
@[simp] theorem cleared_pkBits (s : State) : (s.cleared).pkBits = [] := rfl
@[simp] theorem cleared_up (s : State) : (s.cleared).up = ⟨[], 0⟩ := rfl
@[simp] theorem cleared_txt (s : State) : (s.cleared).txt = [] := rfl
@[simp] theorem cleared_buf (s : State) : (s.cleared).buf = [] := rfl
@[simp] theorem cleared_nm (s : State) : (s.cleared).nm = [] := rfl
@[simp] theorem cleared_root (s : State) : (s.cleared).root = none := rfl
@[simp] theorem cleared_ct (s : State) : (s.cleared).ct = [] := rfl
@[simp] theorem cleared_inbox (s : State) : (s.cleared).inbox = s.inbox := rfl
@[simp] theorem cleared_out (s : State) : (s.cleared).out = .nothing := rfl

end Sys2Proof.Machine
end

