-- ==== Sys2Proof/Laws/Ops.lean ====
section
/-! SUPPORT. One lemma per shared operation that says everything it can do; later proofs cite these. -/

namespace Sys2Proof.Machine

/-! ## Status and responses -/

theorem latched_eq_false_iff (s : State) : s.latched = false ↔ errField s.st = 0 ∧ refField s.st = 0 := by
  simp [State.latched]

theorem countWord_of_lt (op : Byte) {len : Nat} (h : len < 2 ^ 32) : countWord op len = BitVec.ofNat 32 len := by
  rw [countWord, if_pos h]

/-- Every outcome of a command through `finish`: ok, error, refusal, or a model fault. -/
theorem finish_cases (s : State) (emptied : State → State) (r : Except Stop (State × Response)) :
    (∃ t resp, r = .ok (t, resp) ∧ s.finish emptied r = .next (t.respond resp)) ∨
    (∃ k, r = .error (.raise k) ∧ s.finish emptied r = .next ((emptied s).raiseError k)) ∨
    (∃ reason, r = .error (.refuse reason) ∧ s.finish emptied r = .next (s.refuseCommand reason)) ∨
    (∃ f, r = .error (.stuck f) ∧ s.finish emptied r = .fault f) := by
  rcases r with (k | reason | f) | ⟨t, resp⟩
  · exact .inr (.inl ⟨k, rfl, rfl⟩)
  · exact .inr (.inr (.inl ⟨reason, rfl, rfl⟩))
  · exact .inr (.inr (.inr ⟨f, rfl, rfl⟩))
  · exact .inl ⟨t, resp, rfl, rfl⟩

/-- What a delivered command runs as (R242): the decoder's answer when nothing is latched, else CLR, STAT or LATCHED. -/
theorem select_cases (s : State) (c : Command) :
    (s.latched = false ∧ s.select c = decode c) ∨
    (s.latched = true ∧ c = ⟨0, []⟩ ∧ s.select c = .ok .clr) ∨
    (s.latched = true ∧ c = ⟨1, []⟩ ∧ s.select c = .ok .stat) ∨
    (s.latched = true ∧ c ≠ ⟨0, []⟩ ∧ c ≠ ⟨1, []⟩ ∧ s.select c = .error .latched) := by
  unfold State.select
  by_cases hl : s.latched = true
  · by_cases h0 : c = ⟨0, []⟩
    · exact .inr (.inl ⟨hl, h0, by simp [hl, h0]⟩)
    · by_cases h1 : c = ⟨1, []⟩
      · exact .inr (.inr (.inl ⟨hl, h1, by rw [if_pos hl, if_neg h0, if_pos h1]⟩))
      · exact .inr (.inr (.inr ⟨hl, h0, h1, by rw [if_pos hl, if_neg h0, if_neg h1]⟩))
  · exact .inl ⟨by simpa using hl, by simp [hl]⟩

/-! ## The packer and the unpacker -/

theorem packerAppend_ok {s : State} {bits : Bits} (h : s.pkBits.length + bits.length ≤ 8 * s.cfg.bufCap) :
    packerAppend s bits = .ok { s with pkBits := s.pkBits ++ bits } := by
  simp [packerAppend, pkCap, Nat.not_lt.mpr h]

theorem packerAppend_refused {s : State} {bits : Bits} (h : 8 * s.cfg.bufCap < s.pkBits.length + bits.length) :
    packerAppend s bits = .error (.refuse .capacity) := by
  simp [packerAppend, pkCap, h]

theorem length_slice {u : Unpacker} {n : Nat} (h : n ≤ u.rem) : (u.slice n).length = n := by
  simp [Unpacker.slice, Unpacker.rem] at h ⊢; omega

theorem read_ok {u : Unpacker} {n : Nat} (h : n ≤ u.rem) :
    u.read n = .ok (u.slice n, ⟨u.bits, u.pos + n⟩) := by
  simp [Unpacker.read, Unpacker.peek, Nat.not_lt.mpr h, bind, Except.bind, pure, Except.pure]

theorem read_underflow {u : Unpacker} {n : Nat} (h : u.rem < n) : u.read n = .error (.raise .underflow) := by
  simp [Unpacker.read, Unpacker.peek, h, bind, Except.bind]

theorem readFixed_ok {u : Unpacker} {w : Nat} (h : w ≤ u.rem) :
    u.readFixed w = .ok (val (u.slice w), ⟨u.bits, u.pos + w⟩) := by
  simp [Unpacker.readFixed, read_ok h, bind, Except.bind, pure, Except.pure]

theorem readFixed_underflow {u : Unpacker} {w : Nat} (h : u.rem < w) :
    u.readFixed w = .error (.raise .underflow) := by
  simp [Unpacker.readFixed, read_underflow h, bind, Except.bind]

/-- A row matches exactly when its code is what the remaining bits begin with (R189, R190). -/
theorem matchesAt_iff (u : Unpacker) (r : Row) : r.matchesAt u = true ↔ r.code <+: u.bits.drop u.pos := by
  rw [Row.matchesAt, Bool.and_eq_true, decide_eq_true_iff, decide_eq_true_iff, List.prefix_iff_eq_take]
  simp only [Unpacker.rem, Unpacker.slice]
  constructor
  · exact fun h => h.2.symm
  · intro h
    refine ⟨?_, h.symm⟩
    have := congrArg List.length h
    simp at this; omega

/-! ## The tree builder's selection -/

/-- `takeMin` of a collection that is not empty answers. -/
theorem takeMin_cons (e : Entry) (es : List Entry) : ∃ m rest, takeMin (e :: es) = some (m, rest) := by
  unfold takeMin
  split
  · exact ⟨_, _, rfl⟩
  · split <;> exact ⟨_, _, rfl⟩

/-- `takeMin` removes one entry and keeps the others. -/
theorem takeMin_perm {wc rest : List Entry} {m : Entry} (h : takeMin wc = some (m, rest)) : wc.Perm (m :: rest) := by
  induction wc generalizing m rest with
  | nil => simp [takeMin] at h
  | cons e es ih =>
    unfold takeMin at h
    split at h
    · rename_i hn
      cases es with
      | nil => simp only [Option.some.injEq, Prod.mk.injEq] at h; obtain ⟨rfl, rfl⟩ := h; exact .refl _
      | cons a as => obtain ⟨m', r', he⟩ := takeMin_cons a as; rw [he] at hn; cases hn
    · rename_i m' r' hs
      split at h <;> simp only [Option.some.injEq, Prod.mk.injEq] at h <;> obtain ⟨rfl, rfl⟩ := h
      · exact .refl _
      · exact ((ih hs).cons e).trans (.swap _ _ _)

end Sys2Proof.Machine
end

