-- ==== Sys2Proof/Laws/PerInstr.lean ====
section
/-! SUPPORT. Statements about every command as syntax, one lemma per constructor. -/

namespace Sys2Proof.Laws.PayloadLength

/-- The length of a command is known from its header alone (30_encoding.md R86): the encoder's payload has exactly the
number of words the header announces. -/
def Statement (i : Instr) : Prop :=
  i.wellFormed = true → (encode i).payload.length = payloadCount (encode i).header

theorem clr : Statement .clr := fun _ => by decide
theorem stat : Statement .stat := fun _ => by decide
theorem pkb (bits : Bits) : Statement (.pkb bits) := by
  intro h
  have hl : bits.length ≤ 65535 := by simpa [Instr.wellFormed] using h
  simp only [encode, payloadCount, opField_mkHeader, nField_mkHeader, length_toWords]
  simp [formatOf, Format.payloadWords, Nat.mod_eq_of_lt (show bits.length < 65536 by omega)]
theorem pkf (value : Word) (width : BitVec 8) : Statement (.pkf value width) := fun _ => by
  simp [encode, payloadCount, formatOf, Format.payloadWords]
theorem pkfin : Statement .pkfin := fun _ => by decide
theorem upld : Statement .upld := fun _ => by decide
theorem uprf (width : BitVec 8) : Statement (.uprf width) := fun _ => by
  simp [encode, payloadCount, formatOf, Format.payloadWords]
theorem uppk (n : BitVec 16) : Statement (.uppk n) := fun _ => by
  simp [encode, payloadCount, formatOf, Format.payloadWords]
theorem uprb (n : BitVec 16) : Statement (.uprb n) := fun _ => by
  simp [encode, payloadCount, formatOf, Format.payloadWords]
theorem tbld : Statement .tbld := fun _ => by decide
theorem ctbld : Statement .ctbld := fun _ => by decide
theorem ctser : Statement .ctser := fun _ => by decide
theorem ctdes : Statement .ctdes := fun _ => by decide
theorem ctcode (sym : Symbol) : Statement (.ctcode sym) := fun _ => by
  simp [encode, payloadCount, formatOf, Format.payloadWords]
theorem ctsym : Statement .ctsym := fun _ => by decide
theorem comp : Statement .comp := fun _ => by decide
theorem decomp : Statement .decomp := fun _ => by decide

end Sys2Proof.Laws.PayloadLength
end

