-- ==== Sys2Proof/Laws/Run.lean ====
section
/-! SUPPORT. What a command does to ST and to its response's class, and the two readings R269 gives of a run that ended well. -/

namespace Sys2Proof.Machine

/-! ## Response classes -/

theorem failed_of_class (cls : BitVec 2) (code : BitVec 4) (n : BitVec 16) (p : List Word) :
    (HostOut.response ⟨respHeader cls code n, p⟩).failed = (cls == 1 || cls == 2) := by
  have : (respHeader cls code n).extractLsb' 0 2 = cls := BitVec.extractLsb'_append_eq_right
  simp [HostOut.failed, HostOut.responseClass?, this]

@[simp] theorem failed_okWords (p : List Word) : (HostOut.response (okWords p)).failed = false := failed_of_class ..

@[simp] theorem failed_okBits (b : Bits) : (HostOut.response (okBits b)).failed = false := failed_of_class ..

@[simp] theorem failed_errorResponse (k : ErrorKind) : (HostOut.response (errorResponse k)).failed = true := failed_of_class ..

@[simp] theorem failed_refusedResponse (r : RefuseReason) : (HostOut.response (refusedResponse r)).failed = true := failed_of_class ..

/-- A failure recorded in ST = 0 latches. -/
theorem setErr_latched {s t : State} {k : ErrorKind} (hs : s.st = 0) (h : t.st = setErr s.st k.code) : t.latched = true := by
  rw [hs] at h
  cases k <;> simp [State.latched, h] <;> decide

theorem setRef_latched {s t : State} {r : RefuseReason} (hr : r ≠ .latched) (hs : s.st = 0)
    (h : t.st = (s.refuseCommand r).st) : t.latched = true := by
  rw [refuseCommand_st, hs, if_neg hr] at h
  cases r <;> simp [State.latched, h] at hr ⊢ <;> decide

theorem latched_congr {s t : State} (h : t.st = s.st) : t.latched = s.latched := by simp [State.latched, h]

/-! ## A command's own steps never refuse with the reason LATCHED, which is the latch test's alone (R242) -/

/-- The steps do not end in a refusal with the reason LATCHED. -/
structure NotLatched {α : Type} (r : Except Stop α) : Prop where
  ne : r ≠ .error (.refuse .latched)

theorem bind_eq_ok {α β : Type} {x : Except Stop α} {f : α → Except Stop β} {b : β} :
    (x >>= f) = .ok b ↔ ∃ a, x = .ok a ∧ f a = .ok b := by
  cases x <;> simp [bind, Except.bind]

theorem notLatched_ok {α : Type} (a : α) : NotLatched (.ok a) := ⟨nofun⟩

theorem notLatched_bind {α β : Type} {x : Except Stop α} {f : α → Except Stop β} (hx : NotLatched x)
    (hf : ∀ a, NotLatched (f a)) : NotLatched (x >>= f) := by
  cases x with
  | error e => exact ⟨fun h => hx.ne (by simpa [bind, Except.bind] using h)⟩
  | ok a => exact hf a

theorem notLatched_append (s : State) (bits : Bits) : NotLatched (packerAppend s bits) := by
  unfold packerAppend; split <;> exact ⟨nofun⟩

theorem notLatched_peek (u : Unpacker) (n : Nat) : NotLatched (u.peek n) := by
  unfold Unpacker.peek; split <;> exact ⟨nofun⟩

theorem notLatched_read (u : Unpacker) (n : Nat) : NotLatched (u.read n) :=
  notLatched_bind (notLatched_peek u n) fun _ => notLatched_ok _

theorem notLatched_readFixed (u : Unpacker) (w : Nat) : NotLatched (u.readFixed w) :=
  notLatched_bind (notLatched_read u w) fun _ => notLatched_ok _

theorem notLatched_walk (nm : List Node) (fuel x : Nat) (path : Bits) : NotLatched (walk nm fuel x path) := by
  induction fuel generalizing x path with
  | zero => exact ⟨nofun⟩
  | succ fuel ih =>
    unfold walk
    split
    · exact ⟨nofun⟩
    · exact notLatched_ok _
    · exact notLatched_bind (ih ..) fun _ => notLatched_bind (ih ..) fun _ => notLatched_ok _

theorem notLatched_buildTable (nm : List Node) (root : Option Nat) : NotLatched (buildTable nm root) := by
  cases root with
  | none => exact notLatched_ok _
  | some x => exact notLatched_walk ..

theorem notLatched_readRows (count : Nat) (u : Unpacker) : NotLatched (readRows count u) := by
  induction count generalizing u with
  | zero => exact notLatched_ok _
  | succ count ih =>
    exact notLatched_bind (notLatched_readFixed ..) fun _ => notLatched_bind (notLatched_readFixed ..) fun _ =>
      notLatched_bind (notLatched_read ..) fun _ => notLatched_bind (ih _) fun _ => notLatched_ok _

theorem notLatched_readTable (u : Unpacker) : NotLatched (readTable u) :=
  notLatched_bind (notLatched_readFixed ..) fun _ => notLatched_readRows ..

theorem notLatched_codeFor (ct : List Row) (x : Symbol) : NotLatched (codeFor ct x) := by
  unfold codeFor; split <;> exact ⟨nofun⟩

theorem notLatched_symbolFor (ct : List Row) (u : Unpacker) : NotLatched (symbolFor ct u) := by
  unfold symbolFor; split <;> exact ⟨nofun⟩

theorem notLatched_encodeText (ct : List Row) (t : List Symbol) : NotLatched (encodeText ct t) := by
  induction t with
  | nil => exact notLatched_ok _
  | cons x t ih => exact notLatched_bind (notLatched_codeFor ..) fun _ => notLatched_bind ih fun _ => notLatched_ok _

theorem notLatched_decodeText (ct : List Row) (count : Nat) (u : Unpacker) : NotLatched (decodeText ct count u) := by
  induction count generalizing u with
  | zero => exact notLatched_ok _
  | succ count ih => exact notLatched_bind (notLatched_symbolFor ..) fun _ => notLatched_bind (ih _) fun _ => notLatched_ok _

theorem notLatched_artifactBits (t : List Symbol) : NotLatched (artifactBits t) := by
  refine notLatched_bind (notLatched_buildTable ..) fun ct => ?_
  split
  · exact notLatched_ok _
  · exact notLatched_bind (notLatched_encodeText ..) fun _ => notLatched_ok _

theorem notLatched_artifactText (cap : Nat) (b : List Byte) : NotLatched (artifactText cap b) := by
  refine notLatched_bind (notLatched_readFixed ..) fun p => ?_
  dsimp only
  repeat' split
  · exact notLatched_ok _
  · exact ⟨nofun⟩
  · exact notLatched_bind (notLatched_readTable ..) fun _ => notLatched_decodeText ..

/-! ## One command -/

/-- What a command leaves of the waiting interactions, and what its response says of ST: a response that did not fail leaves ST,
a failed one comes with a code written into ERR or REF. -/
def Reported (s t : State) : Prop :=
  t.inbox = s.inbox ∧
  ((t.out.failed = false ∧ t.st = s.st) ∨
   (t.out.failed = true ∧
     ((∃ k : ErrorKind, t.st = setErr s.st k.code) ∨ ∃ r, r ≠ RefuseReason.latched ∧ t.st = (s.refuseCommand r).st)))

/-- A command whose ok branch keeps ST and answers OK reports its outcome. -/
theorem finish_reported {s t : State} {emptied : State → State} {r : Except Stop (State × Response)}
    (hst : (emptied s).st = s.st) (hin : (emptied s).inbox = s.inbox) (hr : NotLatched r)
    (hok : ∀ u resp, r = .ok (u, resp) → u.inbox = s.inbox ∧ u.st = s.st ∧ (HostOut.response resp).failed = false)
    (h : s.finish emptied r = .next t) : Reported s t := by
  obtain ⟨u, resp, hu, he⟩ | ⟨k, -, he⟩ | ⟨reason, hl, he⟩ | ⟨f, -, he⟩ := finish_cases s emptied r <;> rw [he] at h <;> cases h
  · obtain ⟨h1, h2, h3⟩ := hok u resp hu
    exact ⟨h1, .inl ⟨h3, h2⟩⟩
  · exact ⟨hin, .inr ⟨failed_errorResponse k, .inl ⟨k, by simp [hst]⟩⟩⟩
  · exact ⟨rfl, .inr ⟨failed_refusedResponse reason, .inr ⟨reason, fun e => hr.ne (e ▸ hl), rfl⟩⟩⟩

theorem packerAppend_status {s t : State} {bits : Bits} (h : packerAppend s bits = .ok t) :
    t.inbox = s.inbox ∧ t.st = s.st := by
  unfold packerAppend at h
  split at h <;> cases h
  exact ⟨rfl, rfl⟩

/-- An append followed by the OK response reports its outcome. -/
theorem finish_append {s t : State} {bits : Bits}
    (h : s.finish id (packerAppend s bits >>= fun u => pure (u, okWords [])) = .next t) : Reported s t := by
  refine finish_reported rfl rfl (notLatched_bind (notLatched_append ..) fun _ => notLatched_ok _) (fun u resp hr => ?_) h
  obtain ⟨v, hv, hr⟩ := bind_eq_ok.mp hr
  cases hr
  exact ⟨(packerAppend_status hv).1, (packerAppend_status hv).2, rfl⟩

/-- Steps that only compute, followed by a state with the same ST and an OK response, report their outcome. -/
theorem finish_bind {α : Type} {s t : State} {emptied : State → State} {x : Except Stop α} {f : α → State × Response}
    (hst : (emptied s).st = s.st) (hin : (emptied s).inbox = s.inbox) (hx : NotLatched x)
    (hf : ∀ a, (f a).1.inbox = s.inbox ∧ (f a).1.st = s.st ∧ (HostOut.response (f a).2).failed = false)
    (h : s.finish emptied (x >>= fun a => pure (f a)) = .next t) : Reported s t := by
  refine finish_reported hst hin (notLatched_bind hx fun _ => notLatched_ok _) (fun u resp hr => ?_) h
  obtain ⟨a, -, hr⟩ := bind_eq_ok.mp hr
  have hfa := hf a
  rw [show f a = (u, resp) from Except.ok.inj hr] at hfa
  exact hfa

/-- Every command but CLR reports its outcome. -/
theorem exec_reported {i : Instr} {s t : State} (hi : i ≠ .clr) (h : exec i s = .next t) : Reported s t := by
  cases i with
  | clr => exact absurd rfl hi
  | stat | pkfin | upld | tbld => cases h; exact ⟨rfl, .inl ⟨rfl, rfl⟩⟩
  | pkb _ | pkf _ _ => exact finish_append h
  | ctser =>
    by_cases he : s.ct = []
    · simp only [exec, execCtser, he, if_true] at h
      exact finish_reported (r := .error (.refuse .emptyTable)) rfl rfl ⟨nofun⟩ nofun h
    · simp only [exec, execCtser, he, if_false] at h
      exact finish_append h
  | uprf _ => exact finish_bind rfl rfl (notLatched_readFixed ..) (fun _ => ⟨rfl, rfl, rfl⟩) h
  | uppk _ => exact finish_bind rfl rfl (notLatched_peek ..) (fun a => ⟨rfl, rfl, failed_okBits a⟩) h
  | uprb _ => exact finish_bind rfl rfl (notLatched_read ..) (fun a => ⟨rfl, rfl, failed_okBits a.1⟩) h
  | ctbld => exact finish_bind rfl rfl (notLatched_buildTable ..) (fun _ => ⟨rfl, rfl, rfl⟩) h
  | ctdes => exact finish_bind rfl rfl (notLatched_readTable ..) (fun _ => ⟨rfl, rfl, rfl⟩) h
  | ctcode _ => exact finish_bind (f := fun a => (s, okBits a)) rfl rfl (notLatched_codeFor ..) (fun a => ⟨rfl, rfl, failed_okBits a⟩) h
  | ctsym => exact finish_bind rfl rfl (notLatched_symbolFor ..) (fun _ => ⟨rfl, rfl, rfl⟩) h
  | decomp => exact finish_bind rfl rfl (notLatched_artifactText ..) (fun _ => ⟨rfl, rfl, rfl⟩) h
  | comp =>
    refine finish_reported rfl rfl (notLatched_bind (notLatched_artifactBits _) fun b => ?_) (fun u resp hr => ?_) h
    · dsimp only
      split
      · exact ⟨nofun⟩
      · exact notLatched_ok _
    · obtain ⟨b, -, hr⟩ := bind_eq_ok.mp hr
      dsimp only at hr
      split at hr
      · cases hr
      · cases hr; exact ⟨rfl, rfl, rfl⟩

/-- Only the header and payload of CLR decode to CLR. -/
theorem decode_eq_clr {c : Command} (h : decode c = .ok .clr) : c = ⟨0, []⟩ := by
  obtain ⟨hd, pl⟩ := c
  simp only [decode] at h
  split at h
  · cases h
  · rename_i f hf
    repeat' split at h
    any_goals cases h
    rename_i hw hn _ hp _
    have hop : (opField hd).toNat = 0 := by
      unfold assemble at h
      split at h <;> first | assumption | cases h
    obtain rfl : Format.Z = f := by simpa [formatOf, hop] using hf
    simp [Format.wZero, Format.nZero, Format.payloadWords] at hw hn hp
    have hz : hd = 0 := by rw [← mkHeader_fields hd, BitVec.eq_of_toNat_eq (y := 0) hop, hw, hn]; rfl
    simp [hz, hp]

/-- The decoder's refusals have reasons of their own. -/
theorem decode_ne_latched (c : Command) : decode c ≠ .error .latched := by
  simp only [decode, assemble]
  repeat' split
  all_goals nofun

/-- What one step of a run does when it neither clears nor resets: the interaction is taken; from ST = 0 either nothing failed and
ST is still 0, or the response is a failure and HCC is latched; once latched ST stays. -/
theorem step_reported {s t : State} {a : HostAct} {rest : List HostAct} (hs : s.inbox = a :: rest)
    (ha : a.clears = false) (h : step s = .next t) :
    t.inbox = rest ∧ (s.st = 0 → (t.out.failed = false ∧ t.st = 0) ∨ (t.out.failed = true ∧ t.latched = true)) ∧
      (s.latched = true → t.st = s.st) := by
  rw [step, hs] at h
  cases a with
  | reset => simp [HostAct.clears] at ha
  | readTxt | readBuf => cases h; exact ⟨rfl, fun h0 => .inl ⟨rfl, h0⟩, fun _ => rfl⟩
  | writeTxt _ | writeBuf _ =>
    simp only [State.hostWriteTxt, State.hostWriteBuf] at h
    split at h <;> cases h
    exact ⟨rfl, fun h0 => .inl ⟨rfl, h0⟩, fun _ => rfl⟩
  | issue c =>
    have hc : c ≠ ⟨0, []⟩ := by simpa [HostAct.clears] using ha
    simp only [issue] at h
    have hl : ({ s with inbox := rest } : State).latched = s.latched := latched_congr rfl
    obtain ⟨hn, hd⟩ | ⟨-, h0, -⟩ | ⟨hy, -, hd⟩ | ⟨hy, -, -, hd⟩ := select_cases { s with inbox := rest } c
    · rw [hl] at hn
      rw [hd] at h
      cases hdc : decode c with
      | error r =>
        rw [hdc] at h
        cases h
        refine ⟨rfl, fun h0 => .inr ⟨failed_refusedResponse r, ?_⟩, by simp [hn]⟩
        exact setRef_latched (s := { s with inbox := rest }) (fun e => decode_ne_latched c (e ▸ hdc)) h0 rfl
      | ok i =>
        rw [hdc] at h
        obtain ⟨h1, h2⟩ := exec_reported (fun e => hc (decode_eq_clr (e ▸ hdc))) h
        refine ⟨h1, fun h0 => ?_, by simp [hn]⟩
        obtain ⟨hf, hst⟩ | ⟨hf, ⟨k, hk⟩ | ⟨r, hr, hk⟩⟩ := h2
        · exact .inl ⟨hf, hst.trans h0⟩
        · exact .inr ⟨hf, setErr_latched (s := { s with inbox := rest }) h0 hk⟩
        · exact .inr ⟨hf, setRef_latched hr h0 hk⟩
    · exact absurd h0 hc
    · rw [hd] at h
      cases h
      exact ⟨rfl, fun h0 => .inl ⟨rfl, h0⟩, fun _ => rfl⟩
    · rw [hd] at h
      cases h
      refine ⟨rfl, fun h0 => ?_, fun _ => rfl⟩
      rw [hl] at hy
      simp [State.latched, h0, errField, refField] at hy

/-! ## Whole runs -/

/-- The steps of a run from ST = 0 or from a latched state, with no CLR and no reset on the way: all interactions are taken, a
latched ST stays, and from ST = 0 the run ends with ST = 0 exactly when no response was a failure. -/
theorem steps_reported {n : Nat} {s t : State} {outs : List HostOut} (hn : s.inbox.length = n)
    (hc : ∀ a ∈ s.inbox, a.clears = false) (h : s.steps n = some (outs, t)) :
    t.inbox = [] ∧ (s.latched = true → t.st = s.st) ∧ (s.st = 0 → ((∀ o ∈ outs, o.failed = false) ↔ t.st = 0)) := by
  induction n generalizing s outs with
  | zero =>
    cases h
    exact ⟨List.eq_nil_of_length_eq_zero hn, fun _ => rfl, fun h0 => by simp [h0]⟩
  | succ n ih =>
    obtain ⟨a, rest, hs⟩ := List.exists_cons_of_length_eq_add_one hn
    rw [State.steps] at h
    split at h
    case h_2 => cases h
    case h_3 => cases h
    rename_i u hu
    obtain ⟨⟨outs', t'⟩, hr, he⟩ := Option.map_eq_some_iff.mp h
    cases he
    obtain ⟨h1, h2, h3⟩ := step_reported hs (hc a (by simp [hs])) hu
    obtain ⟨i1, i2, i3⟩ := ih (s := u) (by simpa [h1, hs] using hn) (fun b hb => hc b (by simp [hs, h1 ▸ hb])) hr
    refine ⟨i1, fun hl => ?_, fun h0 => ?_⟩
    · rw [i2 (latched_congr (h3 hl) ▸ hl), h3 hl]
    · obtain ⟨hf, hu0⟩ | ⟨hf, hul⟩ := h2 h0
      · simpa [hf] using i3 hu0
      · simp only [List.mem_cons, forall_eq_or_imp, hf, Bool.true_eq_false, false_and, false_iff]
        intro ht
        simp [State.latched, (i2 hul).symm.trans ht, errField, refField] at hul

/-- R269: absent an intervening CLR or reset, a run ended well exactly when ST = 0 at its end. -/
theorem runEndedWell_iff_status {cfg : Config} {acts : List HostAct} {outs : List HostOut} {t : State}
    (hc : ∀ a ∈ acts, a.clears = false) (h : run cfg acts = some (outs, t)) :
    runEndedWell cfg acts = true ↔ t.st = 0 := by
  obtain ⟨h1, -, h3⟩ := steps_reported (s := State.starting cfg acts) rfl hc h
  rw [← h3 rfl]
  simp [runEndedWell, h, State.ended, h1]

end Sys2Proof.Machine
end

