-- ==== Sys2Proof/Tests/Slice0.lean ====
section
/-! SUPPORT. Tests: expected results are the spec's worked examples and vectors (95_test_vectors.md V1 to V97, rules R94,
R112, R163, R175, R179, R204, R212). Then one witness per statement with hypotheses: a concrete state that meets them all. -/

namespace Sys2Proof.Tests

open Sys2Proof.Machine Sys2Proof.Spec

/-! ## Helpers -/

/-- The next state, or none. -/
def after : Result → Option State
  | .next t => some t
  | _ => none

/-- A command answers a next state with a property when evaluating it shows so. -/
theorem next_of_after {r : Result} {p : State → Bool} (h : (after r).map p = some true) :
    ∃ t, r = .next t ∧ p t = true := by
  cases r with
  | next t => exact ⟨t, rfl, by simpa [after] using h⟩
  | fault f => simp [after] at h
  | refused f => simp [after] at h

/-- The reset state of an instance with the given capacities. -/
def small (txtCap bufCap : Nat) : State := { State.reset with cfg := ⟨txtCap, bufCap⟩ }

/-- The same with a text in TXT. -/
def withTxt (t : List Symbol) : State := { small 20 31 with txt := t }

/-- The same with bytes in BUF. -/
def withBuf (b : List Byte) : State := { small 20 31 with buf := b }

/-- The same with one command waiting. -/
def withCmd (s : State) (h : Word) (p : List Word) : State := { s with inbox := [.issue ⟨h, p⟩] }

/-- "abbcccc". -/
def abbcccc : List Symbol := [0x61, 0x62, 0x62, 0x63, 0x63, 0x63, 0x63]

/-- The artifact of "abbcccc" (V70). -/
def artifact70 : List Byte :=
  [0x07, 0x00, 0x00, 0x00, 0x02, 0x00, 0x61, 0x00, 0x02, 0x00] ++
  [0x88, 0x01, 0x08, 0x00, 0x38, 0x06, 0x10, 0x00, 0x10, 0x7D]

/-- The table of "abbcccc" (R175). -/
def table70 : List Row := [⟨0x61, [false, false]⟩, ⟨0x62, [false, true]⟩, ⟨0x63, [true]⟩]

/-- What the command hands back, and ST after it. -/
def outcome (i : Instr) (s : State) : Option (HostOut × Word) := (after (exec i s)).map fun t => (t.out, t.st)

/-! ## WellFormed: every check refuses an ill-formed term -/

theorem test_wf_pkb_too_long_any (bits : Bits) (h : bits.length = 65536) : (Instr.pkb bits).wellFormed = false := by
  simp [Instr.wellFormed, h]

theorem test_wf_pkb_too_long : (Instr.pkb (List.replicate 65536 true)).wellFormed = false :=
  test_wf_pkb_too_long_any _ List.length_replicate

theorem test_wf_pkf_width_33 : (Instr.pkf 0 33).wellFormed = false := by decide

theorem test_wf_uprf_width_33 : (Instr.uprf 33).wellFormed = false := by decide

/-! ## Decoding: every command from a word written out from R84, R91 and R94 -/

theorem test_decode_system_and_packer :
    decode ⟨0x00000000, []⟩ = .ok .clr ∧ decode ⟨0x00000001, []⟩ = .ok .stat ∧
    decode ⟨0x00030010, [0x00000003]⟩ = .ok (.pkb [true, true, false]) ∧
    decode ⟨0x00000311, [0x00000005]⟩ = .ok (.pkf 5 3) ∧ decode ⟨0x00000012, []⟩ = .ok .pkfin :=
  ⟨rfl, rfl, rfl, rfl, rfl⟩

theorem test_decode_unpacker_and_tree :
    decode ⟨0x00000020, []⟩ = .ok .upld ∧ decode ⟨0x00001021, []⟩ = .ok (.uprf 16) ∧
    decode ⟨0x00020022, []⟩ = .ok (.uppk 2) ∧ decode ⟨0xFFFF0023, []⟩ = .ok (.uprb 65535) ∧
    decode ⟨0x00000030, []⟩ = .ok .tbld :=
  ⟨rfl, rfl, rfl, rfl, rfl⟩

theorem test_decode_table_and_sequencer :
    decode ⟨0x00000040, []⟩ = .ok .ctbld ∧ decode ⟨0x00000041, []⟩ = .ok .ctser ∧
    decode ⟨0x00000042, []⟩ = .ok .ctdes ∧ decode ⟨0x00630043, []⟩ = .ok (.ctcode 0x63) ∧
    decode ⟨0x00000044, []⟩ = .ok .ctsym ∧ decode ⟨0x00000050, []⟩ = .ok .comp ∧
    decode ⟨0x00000051, []⟩ = .ok .decomp :=
  ⟨rfl, rfl, rfl, rfl, rfl, rfl, rfl⟩

/-- V15 to V22, R94. -/
theorem test_decode_refusals :
    decode ⟨0x000000FF, []⟩ = .error .badOpcode ∧ decode ⟨0x00000002, []⟩ = .error .badOpcode ∧
    decode ⟨0x00002111, [1]⟩ = .error .badOperand ∧ decode ⟨0x00010012, []⟩ = .error .badOperand ∧
    decode ⟨0x00000100, []⟩ = .error .badOperand ∧ decode ⟨0x00010010, [3]⟩ = .error .badOperand ∧
    decode ⟨0x00010010, []⟩ = .error .badOperand ∧ decode ⟨0x00000112, []⟩ = .error .badOperand :=
  ⟨rfl, rfl, rfl, rfl, rfl, rfl, rfl, rfl⟩

/-- R94, V5, V6: encoding. -/
theorem test_encode_words :
    encode (.pkf 7 32) = ⟨0x00002011, [7]⟩ ∧ encode (.pkb (List.replicate 33 true)) = ⟨0x00210010, [0xFFFFFFFF, 1]⟩ ∧
    encode (.ctcode 0xFFFF) = ⟨0xFFFF0043, []⟩ ∧ encode (.pku16 0x61) = ⟨0x00001011, [0x61]⟩ := by decide

/-- No two rows of the opcode table have the same low byte, so no header selects two (R84). -/
theorem test_opcode_rows_distinct : (opTable.map fun r => r.2.2).Nodup ∧ opTable.length = 17 := by decide

theorem test_table_word_decodes : decodeTableWord 32 0x00000050 = some .comp ∧ decodeTableWord 32 0x00000111 = some (.pkf 0 1) ∧
    decodeTableWord 32 0x00230010 = some (.pkb (List.replicate 35 false)) ∧ decodeTableWord 32 0xFF = none := by decide

/-- R91: the syntax of a command. -/
theorem test_asm : (Instr.pkb [true, true, false]).asm = "PKB \"110\"" := by decide

/-! ## Steps, latch, host -/

/-- The delivered word is the first thing that runs after reset: COMP of the empty text (V72). -/
theorem test_fetch_word_runs :
    (after (step (State.reset.withFetchWord 32 0x50))).map (fun t => (t.buf, t.out)) =
      some ([0, 0, 0, 0], .response ⟨0, [4]⟩) := by decide

/-- V15. -/
theorem test_step_bad_opcode : after (step (withCmd (small 1 4) 0xFF [])) =
    some { small 1 4 with st := 0x10, out := .response ⟨0x12, []⟩ } := by decide

/-- V93, V94: latched before decoding. -/
theorem test_step_latched : after (step (withCmd { small 1 4 with st := 1 } 0x100 [])) =
    some { small 1 4 with st := 1, out := .response ⟨0x52, []⟩ } := by decide

/-- V95. -/
theorem test_step_clr_while_latched : after (step (withCmd { withTxt abbcccc with st := 3 } 0 [])) =
    some { small 20 31 with out := .response ⟨0, []⟩ } := by decide

/-- R93: `.text`; a code point above 65535 is not possible. -/
theorem test_text_directive : HostAct.ofChars ['a', 'b'] = some (.writeTxt [0x61, 0x62]) ∧
    HostAct.ofChars [Char.ofNat 0x1F600] = none := by decide

/-- R71: a text longer than TXT_CAP cannot be handed over. -/
theorem test_host_text_too_long : after (step { small 1 4 with inbox := [.writeTxt [1, 2]] }) = none := by decide

/-! ## Meanings -/

/-- V96. -/
theorem test_stat : outcome .stat { small 1 4 with st := 0x30 } = some (.response ⟨0, [0x30]⟩, 0x30) := by decide

/-- R110's example. -/
theorem test_pkb : (after (exec (.pkb [true, true]) { small 1 4 with pkBits := [true, false, true] })).map State.pkBits =
    some [true, false, true, true, true] := by decide

/-- V26, V27, V28. -/
theorem test_pkf : ([(3 : BitVec 8), 2, 6].map fun w => (after (exec (.pkf 5 w) (small 1 4))).map State.pkBits) =
    [some [true, false, true], some [true, false], some [true, false, true, false, false, false]] := by decide

/-- 2.2: with BUF_CAP = 4 and 30 bits held, PKF 0, 3 is refused. -/
theorem test_pkf_capacity : outcome (.pkf 0 3) { small 1 4 with pkBits := List.replicate 30 false } =
    some (.response ⟨0x32, []⟩, 0x30) := by decide

/-- V32. -/
theorem test_pkfin : (after (execAll [.pkb [true, false, true], .pkf 0x1234 16, .pkf 5 2, .pkfin] (small 1 4))).map
    (fun t => (t.buf, t.out)) = some ([0xA5, 0x91, 0x08], .response ⟨0, [3]⟩) := by decide

/-- V34, V35, V36. -/
theorem test_upld_uprb_uprf :
    (execOuts [.upld, .uprb 36, .uprf 4] (withBuf [0xA5, 0x5A, 0xFF, 0x00, 0x81])).map Prod.fst =
      some [.response ⟨0, [0x28]⟩, .response ⟨0x00240000, [0x00FF5AA5, 1]⟩, .response ⟨0, [8]⟩] := by decide

/-- V39: no partial value. -/
theorem test_uprf_underflow :
    (after (execAll [.upld, .uprf 32] (withBuf [0x78, 0x56, 0x34]))).map (fun t => (t.out, t.st, t.up.pos)) =
      some (.response ⟨0x11, []⟩, 1, 0) := by decide

/-- V39d. -/
theorem test_uppk_padding : outcome (.uppk 3) { small 1 4 with up := ⟨List.replicate 24 false, 21⟩ } =
    some (.response ⟨0x00030000, [0]⟩, 0) := by decide

/-- V49: a tie between a leaf and an internal node. -/
theorem test_tbld_tie : (after (exec .tbld (withTxt [5, 5, 9, 1000, 9, 5]))).map (fun t => (t.nm, t.root)) =
    some ([.leaf 5 3, .leaf 9 2, .leaf 1000 1, .internal 2 1 3, .internal 0 3 6], some 4) := by decide

/-- V47: three nodes of weight 2. -/
theorem test_tbld_abracadabra :
    (after (exec .tbld (withTxt [0x61, 0x62, 0x72, 0x61, 0x63, 0x61, 0x64, 0x61, 0x62, 0x72, 0x61]))).map
      (fun t => t.nm.drop 5) = some [.internal 3 4 2, .internal 1 2 4, .internal 5 6 6, .internal 0 7 11] := by decide

/-- V55 (table of "aabbc"). -/
theorem test_ctbld : (after (execAll [.tbld, .ctbld] (withTxt [0x61, 0x61, 0x62, 0x62, 0x63]))).map State.ct =
    some [⟨0x62, [false]⟩, ⟨0x63, [true, false]⟩, ⟨0x61, [true, true]⟩] := by decide

/-- V53. -/
theorem test_ctser : (after (execAll [.ctser, .pkfin] { small 1 31 with ct := [⟨0x61, [false]⟩, ⟨0x62, [true]⟩] })).map State.buf =
    some [0x01, 0x00, 0x61, 0x00, 0x01, 0x00, 0xC4, 0x00, 0x02, 0x00, 0x02] := by decide

/-- V61. -/
theorem test_ctdes : (after (execAll [.upld, .ctdes] (withBuf [0x01, 0x00, 0x61, 0x00, 0x01, 0x00, 0xC4, 0x00, 0x02, 0x00, 0x02]))).map
    (fun t => (t.ct, t.up.pos)) = some ([⟨0x61, [false]⟩, ⟨0x62, [true]⟩], 82) := by decide

/-- V63. -/
theorem test_ctdes_cut : (after (execAll [.upld, .ctdes] (withBuf [0x01, 0x00, 0x61, 0x00, 0x01, 0x00, 0xC4, 0x00, 0x02, 0x00]))).map
    (fun t => (t.ct, t.up.pos, t.out)) = some ([], 0, .response ⟨0x11, []⟩) := by decide

/-- V68, V68b. -/
theorem test_ctcode : outcome (.ctcode 0x62) { small 1 4 with ct := table70 } = some (.response ⟨0x00020000, [2]⟩, 0) ∧
    outcome (.ctcode 0x64) { small 1 4 with ct := table70 } = some (.response ⟨0x21, []⟩, 2) := by decide

/-- V69, V69b: one bit remains. -/
theorem test_ctsym_last_bit : outcome .ctsym { small 1 4 with ct := table70, up := ⟨[true], 0⟩ } = some (.response ⟨0, [0x63]⟩, 0) ∧
    outcome .ctsym { small 1 4 with ct := table70, up := ⟨[false], 0⟩ } = some (.response ⟨0x31, []⟩, 3) := by decide

/-- V70. -/
theorem test_comp : (after (exec .comp (withTxt abbcccc))).map (fun t => (t.buf, t.out)) =
    some (artifact70, .response ⟨0, [20]⟩) := by decide +kernel

/-- V89b. -/
theorem test_comp_capacity : outcome .comp { small 7 19 with txt := abbcccc } = some (.response ⟨0x32, []⟩, 0x30) := by decide +kernel

/-- V70 decoded. -/
theorem test_decomp : (after (exec .decomp (withBuf artifact70))).map (fun t => (t.txt, t.out)) =
    some (abbcccc, .response ⟨0, [7]⟩) := by decide +kernel

/-- V82: the last byte cut off. -/
theorem test_decomp_cut : (after (exec .decomp { withBuf (artifact70.take 19) with txt := [1] })).map
    (fun t => (t.txt, t.out, t.st)) = some ([], .response ⟨0x31, []⟩, 3) := by decide +kernel

/-! ## Witnesses: for every statement with hypotheses, a concrete case that meets all of them, one per clause -/

/-- A state that meets the invariants with a tree and a text: "a" after TBLD. -/
def withLeaf : State := { withTxt [0x61] with nm := [.leaf 0x61 1], root := some 0 }

/-- A bare leaf is a tree of one leaf (R159, R28). -/
theorem treeOf_leaf : TreeOf 1 [.leaf 0x61 1] (some 0) where
  nonempty := by decide
  count := rfl
  top := rfl
  leaves := fun x h => ⟨0x61, 1, by rw [show x = 0 by omega]; rfl⟩
  distinct := by decide
  internals := fun x h1 h2 => by omega
  parents := by decide
  widths := by decide

/-- The three-symbol tree of "abc" (V46) with its two internal nodes. -/
theorem treeOf_abc :
    TreeOf 3 [.leaf 0x61 1, .leaf 0x62 1, .leaf 0x63 1, .internal 0 1 2, .internal 2 3 3] (some 4) where
  nonempty := by decide
  count := rfl
  top := rfl
  leaves := fun x h => by
    have : x = 0 ∨ x = 1 ∨ x = 2 := by omega
    rcases this with rfl | rfl | rfl <;> exact ⟨_, _, rfl⟩
  distinct := by decide
  internals := fun x h1 h2 => by
    have : x = 3 ∨ x = 4 := by omega
    rcases this with rfl | rfl
    · exact ⟨0, 1, rfl, by decide, by decide⟩
    · exact ⟨2, 3, rfl, by decide, by decide⟩
  parents := by decide
  widths := by decide

theorem withLeaf_inv : withLeaf.Inv where
  params := by decide
  packer := by decide
  unpackerBytes := by decide
  unpackerCap := by decide
  cursor := by decide
  text := by decide
  bytes := by decide
  table := ⟨by decide, by simp [withLeaf, withTxt, small, State.reset]⟩
  tree := .inr ⟨1, treeOf_leaf⟩
  reserved := by decide
  errLegal := by decide
  refLegal := by decide
  oneFailure := .inl (by decide)

/-! ## Runs (R269): a failure before a CLR still makes the run end badly, though ST is 0 at its end -/

theorem test_run_error_clr_ok_is_not_well :
    runEndedWell ⟨20, 31⟩ [.issue ⟨0x51, []⟩, .issue ⟨0, []⟩, .issue ⟨1, []⟩] = false ∧
    (run ⟨20, 31⟩ [.issue ⟨0x51, []⟩, .issue ⟨0, []⟩, .issue ⟨1, []⟩]).map (fun p => p.2.st) = some 0 := by decide +kernel

theorem test_run_compress_is_well :
    runEndedWell ⟨20, 31⟩ [.writeTxt abbcccc, .issue ⟨0x50, []⟩, .readBuf] = true ∧
    ∀ a ∈ [.writeTxt abbcccc, .issue ⟨0x50, []⟩, .readBuf], HostAct.clears a = false := by decide +kernel

theorem test_run_not_ended_while_a_command_waits :
    (State.starting ⟨20, 31⟩ [.readTxt, .issue ⟨1, []⟩]).ended = false ∧ (State.starting ⟨20, 31⟩ [.readTxt]).ended = true := by
  decide

theorem witness_DecodeInvertsEncode : (Instr.pkf 0xFFFFFFFF 32).wellFormed = true ∧ (Instr.pkb []).wellFormed = true := by decide

theorem witness_EncodeInvertsDecode : decode ⟨0xFFFF0023, []⟩ = .ok (.uprb 65535) := rfl

theorem witness_DecodedHeaderSelectsExactlyItsRow : decode ⟨0x00002011, [7]⟩ = .ok (.pkf 7 32) := rfl

theorem witness_PayloadWordsCarryBitsInOrder :
    1 < (toWords (List.replicate 33 true)).length ∧ (31 : Nat) < 32 := by decide

theorem witness_StepRunsTheDecodedCommand :
    (withCmd (small 1 4) 0x50 []).inbox = .issue ⟨0x50, []⟩ :: [] ∧ errField (withCmd (small 1 4) 0x50 []).st = 0 ∧
    refField (withCmd (small 1 4) 0x50 []).st = 0 ∧ decode ⟨0x50, []⟩ = .ok .comp := ⟨rfl, by decide, by decide, rfl⟩

theorem witness_StepRefusesBadEncodingsAndLatchedCommands :
    ((withCmd (small 1 4) 0xFF []).st = 0 ∧ decode ⟨0xFF, []⟩ = .error .badOpcode) ∧
    ((withCmd (small 1 4) 0x100 []).st = 0 ∧ decode ⟨0x100, []⟩ = .error .badOperand) ∧
    errField ({ small 1 4 with st := 1 } : State).st ≠ 0 ∧ refField ({ small 1 4 with st := 0x40 } : State).st ≠ 0 ∧
    (⟨0, [0]⟩ : Command) ≠ ⟨0, []⟩ ∧ (⟨0, [0]⟩ : Command) ≠ ⟨1, []⟩ := ⟨⟨rfl, rfl⟩, ⟨rfl, rfl⟩, by decide⟩

theorem witness_LatchedStatusChangesOnlyByClrOrReset :
    ∃ s t : State, (errField s.st ≠ 0 ∨ refField s.st ≠ 0) ∧ step s = .next t :=
  ⟨withCmd { small 1 4 with st := 3 } 0 [], _, by decide, rfl⟩

theorem witness_ResetAndClrGiveTheResetValues :
    ({ small 1 4 with inbox := [.reset, .readTxt] } : State).inbox = .reset :: [.readTxt] ∧
    (withCmd { small 1 4 with st := 1 } 0 []).inbox = .issue ⟨0, []⟩ :: [] := ⟨rfl, rfl⟩

theorem witness_HostInteractionsActOnWholeBuffers :
    ([0xFFFF] : List Symbol).length ≤ (small 1 4).cfg.txtCap ∧ ([1, 2, 3, 4] : List Byte).length ≤ (small 1 4).cfg.bufCap ∧
    ({ small 1 4 with inbox := [.writeTxt [0xFFFF]] } : State).inbox = .writeTxt [0xFFFF] :: [] ∧
    ({ small 1 4 with inbox := [.writeBuf [1, 2, 3, 4]] } : State).inbox = .writeBuf [1, 2, 3, 4] :: [] ∧
    ({ small 1 4 with inbox := [.readTxt] } : State).inbox = .readTxt :: [] ∧
    ({ small 1 4 with inbox := [.readBuf] } : State).inbox = .readBuf :: [] ∧ (small 1 4).inbox = [] := by decide

theorem witness_StepKeepsTheInvariants : ∃ s t : State, s.Inv ∧ step s = .next t := ⟨withLeaf, _, withLeaf_inv, rfl⟩

theorem witness_InvariantStatesNeverStop : withLeaf.Inv ∧ ∀ a ∈ withLeaf.inbox, a.possible withLeaf.cfg = true :=
  ⟨withLeaf_inv, by decide⟩

theorem witness_UnlatchedStatusIsZero : withLeaf.Inv ∧ errField withLeaf.st = 0 ∧ refField withLeaf.st = 0 :=
  ⟨withLeaf_inv, by decide, by decide⟩

theorem witness_CommandsWriteOnlyWhatTheStateTableLists :
    ∃ t, exec .ctbld withLeaf = .next t ∧ writesPk .ctbld = false ∧ classOf t.out = 0 ∧ t.ct ≠ withLeaf.ct :=
  ⟨_, rfl, rfl, by decide, by decide⟩

theorem witness_FailedCommandsChangeOnlyStatusAndOutput :
    (∃ t, (withBuf [1]).st = 0 ∧ exec .decomp (withBuf [1]) = .next t ∧ classOf t.out = 1) ∧
    (∃ t, (small 1 4).st = 0 ∧ exec .ctser (small 1 4) = .next t ∧ classOf t.out = 2) :=
  ⟨⟨_, rfl, rfl, by decide⟩, ⟨_, rfl, rfl, by decide⟩⟩

/-- A packer with 30 of 32 bits used. -/
def pk30 : State := { small 1 4 with pkBits := List.replicate 30 true }

theorem witness_PkbAppendsItsBits : pk30.pkBits.length + [true, false].length ≤ 8 * pk30.cfg.bufCap := by decide

theorem witness_PkfAppendsTheLowBits :
    (2 : BitVec 8).toNat ≤ 32 ∧ pk30.pkBits.length + (2 : BitVec 8).toNat ≤ 8 * pk30.cfg.bufCap ∧
    (32 : BitVec 8).toNat ≤ 32 ∧ (small 1 4).pkBits.length + (32 : BitVec 8).toNat ≤ 8 * (small 1 4).cfg.bufCap := by decide

theorem witness_AppendsBeyondCapacityAreRefused :
    pk30.st = 0 ∧ 8 * pk30.cfg.bufCap < pk30.pkBits.length + [true, true, true].length ∧
    8 * pk30.cfg.bufCap < pk30.pkBits.length + (3 : BitVec 8).toNat ∧
    ({ small 1 4 with ct := table70 } : State).ct ≠ [] ∧
    8 * (small 1 4).cfg.bufCap < 0 + (16 + (table70.map fun r => 32 + r.code.length).sum) := by decide

theorem witness_PkfinPacksTheStreamIntoBytes : 3 < (pack pk30.pkBits).length ∧ (7 : Nat) < 8 ∧
    (pack pk30.pkBits).length < 2 ^ 32 := by decide

theorem witness_AppendsCompose :
    pk30.pkBits.length + ([true] ++ [false]).length ≤ 8 * pk30.cfg.bufCap ∧
    (16 : BitVec 8).toNat + (16 : BitVec 8).toNat ≤ 32 ∧ (0xFFFF : Word).toNat < 2 ^ (16 : BitVec 8).toNat ∧
    (small 1 4).pkBits.length + ((16 : BitVec 8).toNat + (16 : BitVec 8).toNat) ≤ 8 * (small 1 4).cfg.bufCap := by decide

theorem witness_PkfinKeepsThePackedStream :
    (small 1 4).pkBits = [] ∧ [true, false].length + [true].length ≤ 8 * (small 1 4).cfg.bufCap := by decide

theorem witness_UpldExpandsTheBuffer : 1 < (withBuf [1, 0x80]).buf.length ∧ (7 : Nat) < 8 := by decide

/-- An unpacker with 8 bits, one of them read. -/
def up8 : State := { small 1 4 with up := ⟨[true, false, true, true, true, false, false, false], 1⟩ }

theorem witness_UprfReadsAnUnsignedField :
    (7 : BitVec 8).toNat ≤ 32 ∧ (7 : BitVec 8).toNat ≤ up8.up.bits.length - up8.up.pos := by decide

theorem witness_UppkPeeksAndUprbReads : (7 : BitVec 16).toNat ≤ up8.up.bits.length - up8.up.pos := by decide

theorem witness_ShortReadsUnderflow :
    up8.st = 0 ∧ up8.up.bits.length - up8.up.pos < (8 : BitVec 8).toNat ∧
    up8.up.bits.length - up8.up.pos < (8 : BitVec 16).toNat := by decide

theorem witness_UnpackerReadsCompose :
    (7 : BitVec 16).toNat = (3 : BitVec 16).toNat + (4 : BitVec 16).toNat ∧
    (7 : BitVec 16).toNat ≤ up8.up.bits.length - up8.up.pos := by decide

theorem witness_PackedBitsAreReadBack : pk30.pkBits.length = (30 : BitVec 16).toNat := by decide

theorem witness_TbldSeedsLeavesInFirstOccurrenceOrder :
    ∃ t, exec .tbld (withTxt [7, 9, 7]) = .next t ∧ t.nm[0]? = some (.leaf 7 2) ∧ t.nm[2]? = some (.internal 1 0 3) :=
  ⟨_, rfl, by decide, by decide⟩

theorem witness_TbldMergesTheTwoLightest :
    ∃ t, exec .tbld (withTxt [1, 2, 3]) = .next t ∧ t.nm[3]? = some (.internal 0 1 2) ∧ 2 < 3 ∧ 2 ≠ 0 ∧ 2 ≠ 1 ∧
      ∀ nd ∈ t.nm.take 3, 2 ∉ nd.children :=
  ⟨_, rfl, by decide, by decide, by decide, by decide, by decide⟩

theorem witness_TbldBuildsATreeOfTheText : (withTxt [1, 2]).txt.length < 2 ^ 32 ∧ (withTxt [1, 2]).txt ≠ [] := by decide

theorem witness_TbldOfTheEmptyTextBuildsNoTree : (small 1 4).txt = [] := rfl

theorem witness_TbldOfOneSymbolBuildsABareLeaf : (withTxt [5, 5, 5]).txt = List.replicate (2 + 1) 5 := by decide

theorem witness_CtbldRowsAreTheLeavesAndTheirPaths : withLeaf.root = some 0 ∧ TreeOf 1 withLeaf.nm withLeaf.root :=
  ⟨rfl, treeOf_leaf⟩

theorem witness_CtbldRowsAreTheLeavesAndTheirPaths_abc : ∃ s : State, s.root = some 4 ∧ TreeOf 3 s.nm s.root :=
  ⟨{ withTxt [0x61, 0x62, 0x63] with
      nm := [.leaf 0x61 1, .leaf 0x62 1, .leaf 0x63 1, .internal 0 1 2, .internal 2 3 3], root := some 4 }, rfl, treeOf_abc⟩

theorem witness_CtbldOfNoTreeAndOfABareLeaf :
    (small 1 4).root = none ∧ withLeaf.nm = [.leaf 0x61 1] ∧ withLeaf.root = some 0 ∧
    ({ small 1 4 with ct := [⟨0x61, []⟩] } : State).ct = [⟨0x61, []⟩] := by decide

theorem witness_BuiltTablesArePrefixFreeAndComplete :
    (withTxt abbcccc).txt ≠ [] ∧ (withTxt abbcccc).txt.length < 2 ^ 32 ∧ (withTxt [1]).txt ≠ [] := by decide

theorem witness_CtserAppendsTheSerialisedTable :
    table70 ≠ [] ∧ 0 + (tableBits table70).length ≤ 8 * (small 1 15).cfg.bufCap := by decide

theorem witness_CtserOfZeroRowsIsRefused : (small 1 4).st = 0 ∧ (small 1 4).ct = [] := ⟨rfl, rfl⟩

theorem table70_serialisable : Serialisable table70 := ⟨by decide, by decide, by decide⟩

theorem witness_CtdesReadsTheSerialisedTable :
    Serialisable table70 ∧
    remaining { small 1 40 with up := ⟨tableBits table70 ++ [false, false, false], 0⟩ } = tableBits table70 ++ [false, false, false] :=
  ⟨table70_serialisable, rfl⟩

theorem witness_CtdesUnderflowsOnACutTable : (small 1 4).st = 0 ∧
    ∀ ct rest, Serialisable ct → remaining (small 1 4) ≠ tableBits ct ++ rest :=
  ⟨rfl, fun ct rest _ h => by
    have := congrArg List.length h
    simp [remaining, small, State.reset, tableBits, field] at this
    omega⟩

theorem witness_CtdesReversesCtser : Serialisable ({ small 1 40 with ct := table70, pkBits := [true] } : State).ct ∧
    [true].length + (tableBits table70).length ≤ 8 * (small 1 40).cfg.bufCap := ⟨table70_serialisable, by decide⟩

theorem witness_CtcodeReturnsTheFirstRowsCode :
    table70 = [⟨0x61, [false, false]⟩] ++ ⟨0x62, [false, true]⟩ :: [⟨0x63, [true]⟩] ∧
    (∀ q ∈ [(⟨0x61, [false, false]⟩ : Row)], q.sym ≠ 0x62) ∧ (small 1 4).st = 0 ∧ (∀ q ∈ table70, q.sym ≠ 0x64) := by decide

theorem witness_CtsymDecodesByTheFirstMatchingRow :
    table70 = [⟨0x61, [false, false]⟩, ⟨0x62, [false, true]⟩] ++ ⟨0x63, [true]⟩ :: [] ∧
    [true] <+: remaining { small 1 4 with ct := table70, up := ⟨[true], 0⟩ } ∧
    (∀ q ∈ [(⟨0x61, [false, false]⟩ : Row), ⟨0x62, [false, true]⟩], ¬ q.code <+: [true]) ∧
    (small 1 4).st = 0 ∧ (∀ q ∈ table70, ¬ q.code <+: [false]) := by decide

theorem witness_CompWritesTheArtifact :
    ∃ t, (withTxt abbcccc).txt.length < 2 ^ 32 ∧ execAll [.tbld, .ctbld] { small 7 20 with txt := abbcccc } = .next t ∧
      artifactLength abbcccc t.ct ≤ 8 * (small 7 20).cfg.bufCap ∧ (pack (artifact abbcccc t.ct)).length < 2 ^ 32 :=
  ⟨_, by decide, rfl, by decide, by decide +kernel⟩

theorem witness_CompBeyondCapacityIsRefused :
    ∃ t, (small 7 19).st = 0 ∧ abbcccc.length < 2 ^ 32 ∧ execAll [.tbld, .ctbld] { small 7 19 with txt := abbcccc } = .next t ∧
      8 * (small 7 19).cfg.bufCap < artifactLength abbcccc t.ct :=
  ⟨_, rfl, by decide, rfl, by decide⟩

theorem witness_CompOfTheEmptyText : (small 1 4).txt = [] ∧ 4 ≤ (small 1 4).cfg.bufCap := by decide

theorem witness_CompDependsOnTheTextAlone :
    ∃ t t', exec .comp (withTxt [1, 2]) = .next t ∧ exec .comp { withTxt [1, 2] with buf := [9], pkBits := [true] } = .next t' ∧
      classOf t.out = 0 := ⟨_, _, rfl, rfl, by decide +kernel⟩

theorem witness_CompEqualsTheUnitCommands :
    ∃ t c, (withTxt [1, 2]).st = 0 ∧ (withTxt [1, 2]).pkBits = [] ∧ (withTxt [1, 2]).txt.length < 2 ^ 32 ∧
      execAll [.tbld, .ctbld] (withTxt [1, 2]) = .next t ∧ exec .comp (withTxt [1, 2]) = .next c ∧ classOf c.out = 0 :=
  ⟨_, _, rfl, rfl, by decide, rfl, rfl, by decide +kernel⟩

/-- The bits "1" decode to 'c' with the table of "abbcccc". -/
theorem decodes_c : DecodesTo table70 [true] [0x63] :=
  .symbol [⟨0x61, [false, false]⟩, ⟨0x62, [false, true]⟩] [] ⟨0x63, [true]⟩ [] [] rfl (by decide) (.done [])

/-- The artifact of one 'c' with the table of "abbcccc": 32 + 117 + 1 bits and the padding (R59). -/
def artifactC : List Byte := pack (field 1 32 ++ tableBits table70 ++ [true])

theorem witness_DecompDecodesTheArtifact :
    ([0x63] : List Symbol) ≠ [] ∧ ([0x63] : List Symbol).length < 2 ^ 32 ∧ ([0x63] : List Symbol).length ≤ (small 1 20).cfg.txtCap ∧
    Serialisable table70 ∧
    unpack artifactC = field ([0x63] : List Symbol).length 32 ++ tableBits table70 ++ ([true] ++ List.replicate 2 false) ∧
    DecodesTo table70 ([true] ++ List.replicate 2 false) [0x63] :=
  ⟨by decide, by decide, by decide, table70_serialisable, by decide +kernel,
    .symbol [⟨0x61, [false, false]⟩, ⟨0x62, [false, true]⟩] [] ⟨0x63, [true]⟩ (List.replicate 2 false) [] rfl (by decide) (.done _)⟩

theorem witness_DecompOfZeroAndOfTooLargeCounts :
    unpack [0, 0, 0, 0, 0xAB] = field 0 32 ++ unpack [0xAB] ∧
    (small 6 20).st = 0 ∧ (7 : Nat) < 2 ^ 32 ∧ unpack artifact70 = field 7 32 ++ unpack (artifact70.drop 4) ∧
    (small 6 20).cfg.txtCap < 7 := ⟨by decide, rfl, by decide, by decide +kernel, by decide⟩

theorem witness_DecompFailsByTheFirstCause_count : (withBuf [1, 0, 0]).st = 0 ∧ (withBuf [1, 0, 0]).buf.length < 4 := by decide

theorem witness_DecompFailsByTheFirstCause_table :
    (1 : Nat) ≤ 1 ∧ (1 : Nat) < 2 ^ 32 ∧ 1 ≤ (withBuf [1, 0, 0, 0, 0]).cfg.txtCap ∧
    unpack [1, 0, 0, 0, 0] = field 1 32 ++ List.replicate 8 false ∧
    ∀ ct tail, Serialisable ct → List.replicate 8 false ≠ tableBits ct ++ tail :=
  ⟨by decide, by decide, by decide, by decide, fun ct tail _ h => by
    have := congrArg List.length h
    simp [tableBits, field] at this; omega⟩

/-- The foreign artifact of R212 (g): one row `a = 1`, payload bit 0. -/
theorem witness_DecompFailsByTheFirstCause_symbol :
    Serialisable [⟨0x61, [true]⟩] ∧
    unpack [0x01, 0, 0, 0, 0, 0, 0x61, 0, 1, 0, 1] = field 1 32 ++ tableBits [⟨0x61, [true]⟩] ++ List.replicate 7 false ∧
    ∀ xs : List Symbol, xs.length = 1 → ¬ DecodesTo [⟨0x61, [true]⟩] (List.replicate 7 false) xs := by
  refine ⟨⟨by decide, by decide, by decide⟩, by decide +kernel, ?_⟩
  rintro xs hx h
  generalize hb : List.replicate 7 false = b at h
  cases h with
  | done => simp at hx
  | symbol before after r tail xs table first more =>
    rcases before with _ | ⟨q, before⟩
    · simp at table; obtain ⟨rfl, -⟩ := table; simp [List.replicate] at hb
    · simp at table

theorem witness_DecompEqualsTheUnitCommands :
    ∃ t, exec .decomp (withBuf [4, 0, 0, 0, 0, 0, 0x61, 0, 0, 0]) = .next t ∧ classOf t.out = 0 := ⟨_, rfl, by decide⟩

theorem witness_DecompFailsWhereTheUnitCommandsFail :
    ∃ t, (withBuf [1, 0, 0, 0, 0, 0, 0x61, 0, 1, 0, 1]).st = 0 ∧
      exec .decomp (withBuf [1, 0, 0, 0, 0, 0, 0x61, 0, 1, 0, 1]) = .next t ∧ t.out = errOut 3 ∧ 3 ≤ 3 :=
  ⟨_, rfl, rfl, by decide +kernel, by decide⟩

theorem witness_CompThenDecompRestoresTheText :
    ∃ t, abbcccc.length < 2 ^ 32 ∧ abbcccc.length ≤ (small 7 20).cfg.txtCap ∧
      execAll [.tbld, .ctbld] { small 7 20 with txt := abbcccc } = .next t ∧
      artifactLength abbcccc t.ct ≤ 8 * (small 7 20).cfg.bufCap :=
  ⟨_, by decide, by decide, rfl, by decide⟩

theorem witness_TruncatedArtifactsAlwaysFail :
    ∃ c, (withTxt abbcccc).st = 0 ∧ (withTxt abbcccc).txt.length < 2 ^ 32 ∧
      (withTxt abbcccc).txt.length ≤ (withTxt abbcccc).cfg.txtCap ∧
      exec .comp (withTxt abbcccc) = .next c ∧ classOf c.out = 0 ∧ 19 < c.buf.length := by
  obtain ⟨c, h, hp⟩ := next_of_after (r := exec .comp (withTxt abbcccc))
    (p := fun c => decide (classOf c.out = 0 ∧ 19 < c.buf.length)) (by decide +kernel)
  exact ⟨c, rfl, by decide, by decide, h, of_decide_eq_true hp⟩

end Sys2Proof.Tests
end

section
/-! PROOFS. What COMP's answer is made from (00_scope.md R19 (e), 42_tree_builder.md R160 (d)). -/

namespace Sys2Proof.Proofs

open Sys2Proof.Machine Sys2Proof.Spec

/-! ## COMP, one equation per outcome (44_codec_sequences.md R200, R202) -/

theorem exec_comp_of_fits {s : State} {bits : Bits} (hbits : artifactBits s.txt = .ok bits)
    (hfit : bits.length ≤ pkCap s.cfg) :
    exec .comp s = .next ({ s.clearWorking with buf := pack bits }.respond
      (okWords [countWord 0x50 (pack bits).length])) := by
  simp [exec, execComp, hbits, Nat.not_lt.mpr hfit, State.finish, bind, Except.bind, pure, Except.pure]

theorem exec_comp_of_exceeds {s : State} {bits : Bits} (hbits : artifactBits s.txt = .ok bits)
    (hlong : pkCap s.cfg < bits.length) :
    exec .comp s = s.finish State.emptyBuf (.error (.refuse .capacity)) := by
  simp [exec, execComp, hbits, hlong, bind, Except.bind, throw, throwThe, MonadExceptOf.throw]

theorem exec_comp_of_stop {s : State} {e : Stop} (hstop : artifactBits s.txt = .error e) :
    exec .comp s = s.finish State.emptyBuf (.error e) := by
  simp [exec, execComp, hstop, bind, Except.bind]

/-! ## A command that does not complete -/

/-- The class of a response is that of its header (R88). -/
theorem classOf_respHeader (cls : BitVec 2) (code : BitVec 4) (n : BitVec 16) (p : List Word) :
    classOf (.response ⟨respHeader cls code n, p⟩) = cls.toNat := by
  have hlow : (respHeader cls code n).extractLsb' 0 2 = cls := BitVec.extractLsb'_append_eq_right
  simpa [classOf] using congrArg BitVec.toNat hlow

@[simp] theorem classOf_errorResponse (k : ErrorKind) : classOf (.response (errorResponse k)) = 1 :=
  classOf_respHeader ..

@[simp] theorem classOf_refusedResponse (r : RefuseReason) : classOf (.response (refusedResponse r)) = 2 :=
  classOf_respHeader ..

/-- Commands that stop for the same cause hand back the same failure, whatever their states (R236 (d), R240 (c)). -/
theorem finish_error_out_eq {s s' t t' : State} {emptied : State → State} {e : Stop}
    (h : s.finish emptied (.error e) = .next t) (h' : s'.finish emptied (.error e) = .next t') :
    t.out = t'.out ∧ classOf t.out ≠ 0 := by
  cases e with
  | raise k => cases h; cases h'; exact ⟨rfl, by simp⟩
  | refuse r => cases h; cases h'; exact ⟨rfl, by simp⟩
  | stuck f => cases h

/-! ## The statement -/

/-- Settles O52: COMP reads the text and the capacity only, so both states come to the same outcome, and a completed COMP
overwrites the whole of BUF. -/
theorem compDependsOnTheTextAlone : Obligations.CompDependsOnTheTextAlone := by
  intro s s' t t' htxt hcfg h h'
  have failing {e : Stop} (h : s.finish State.emptyBuf (.error e) = .next t)
      (h' : s'.finish State.emptyBuf (.error e) = .next t') :
      t.out = t'.out ∧ (classOf t.out = 0 → t.buf = t'.buf) := by
    obtain ⟨hout, hfailed⟩ := finish_error_out_eq h h'
    exact ⟨hout, fun hok => absurd hok hfailed⟩
  cases hbits : artifactBits s.txt with
  | error e =>
    rw [exec_comp_of_stop hbits] at h
    rw [exec_comp_of_stop (htxt ▸ hbits)] at h'
    exact failing h h'
  | ok bits =>
    rcases Nat.lt_or_ge (pkCap s.cfg) bits.length with hlong | hfit
    · rw [exec_comp_of_exceeds hbits hlong] at h
      rw [exec_comp_of_exceeds (htxt ▸ hbits) (hcfg ▸ hlong)] at h'
      exact failing h h'
    · rw [exec_comp_of_fits hbits hfit] at h
      rw [exec_comp_of_fits (htxt ▸ hbits) (hcfg ▸ hfit)] at h'
      cases h
      cases h'
      exact ⟨rfl, fun _ => rfl⟩

end Sys2Proof.Proofs
end

section
/-! PROOFS. The text builds a legal tree (10_state.md R28, 42_tree_builder.md R152 to R157). -/

namespace Sys2Proof.Proofs

open Sys2Proof.Machine

/-! ## The frequency count (R152) -/

/-- Counting one occurrence leaves the symbols counted so far in place and adds a new one at the end. -/
theorem map_fst_countSymbol (x : Symbol) (fq : List (Symbol × Nat)) :
    (countSymbol x fq).map Prod.fst =
      if x ∈ fq.map Prod.fst then fq.map Prod.fst else fq.map Prod.fst ++ [x] := by
  induction fq with
  | nil => simp [countSymbol]
  | cons p fq ih =>
    obtain ⟨y, c⟩ := p
    by_cases hy : y = x
    · simp [countSymbol, hy]
    · rw [countSymbol, if_neg hy, List.map_cons, ih]
      by_cases hx : x ∈ fq.map Prod.fst <;> simp [hx, Ne.symm hy]

theorem sum_countSymbol (x : Symbol) (fq : List (Symbol × Nat)) :
    ((countSymbol x fq).map Prod.snd).sum = (fq.map Prod.snd).sum + 1 := by
  induction fq with
  | nil => simp [countSymbol]
  | cons p fq ih =>
    obtain ⟨y, c⟩ := p
    by_cases hy : y = x
    · simp [countSymbol, hy]; omega
    · simp [countSymbol, hy, ih]; omega

theorem nodup_countSymbol {x : Symbol} {fq : List (Symbol × Nat)} (h : (fq.map Prod.fst).Nodup) :
    ((countSymbol x fq).map Prod.fst).Nodup := by
  rw [map_fst_countSymbol]
  split
  · exact h
  · rename_i hx
    exact List.nodup_append.mpr ⟨h, List.nodup_singleton x, fun a ha b hb e => hx (by simp_all)⟩

theorem frequencies_append (t : List Symbol) (x : Symbol) :
    frequencies (t ++ [x]) = countSymbol x (frequencies t) := by
  simp [frequencies]

theorem nodup_frequencies (t : List Symbol) : ((frequencies t).map Prod.fst).Nodup := by
  induction t using List.reverseRecOn with
  | nil => exact List.nodup_nil
  | append_singleton t x ih => rw [frequencies_append]; exact nodup_countSymbol ih

/-- The counts add up to the length of the text. -/
theorem sum_frequencies (t : List Symbol) : ((frequencies t).map Prod.snd).sum = t.length := by
  induction t using List.reverseRecOn with
  | nil => rfl
  | append_singleton t x ih => rw [frequencies_append, sum_countSymbol, ih, List.length_append]; rfl

theorem frequencies_ne_nil {t : List Symbol} (h : t ≠ []) : frequencies t ≠ [] := by
  intro h0
  have hsum := sum_frequencies t
  rw [h0] at hsum
  exact h (List.eq_nil_of_length_eq_zero hsum.symm)

/-! ## The merges (R155, R156) -/

/-- What the merges keep: `nm` holds `k` leaves of distinct symbols and internal cells made of earlier cells, the collection
`wc` holds exactly the cells that have no parent yet, each with its weight, and its weights add up to `total`. -/
structure Forest (k total : Nat) (nm : List Node) (wc : List Entry) : Prop where
  count : nm.length + wc.length = 2 * k
  leaves : ∀ x, x < k → ∃ sym w, nm[x]? = some (.leaf sym w)
  distinct : (nm.filterMap Node.symbol?).Nodup
  internals : ∀ x, k ≤ x → x < nm.length →
    ∃ l r, nm[x]? = some (.internal l r (weightAt nm l + weightAt nm r)) ∧ l < x ∧ r < x
  parents : (nm.flatMap Node.children ++ wc.map Entry.id).Perm (List.range nm.length)
  entries : ∀ e ∈ wc, e.weight = weightAt nm e.id
  sum : (wc.map Entry.weight).sum = total
  widths : ∀ nd ∈ nm, nd.weight ≤ total

theorem weightAt_append {nm : List Node} {x : Nat} (h : x < nm.length) (nd : Node) :
    weightAt (nm ++ [nd]) x = weightAt nm x := by
  simp [weightAt, List.getElem?_append_left h]

theorem forest_leaves {fq : List (Symbol × Nat)} (hd : (fq.map Prod.fst).Nodup) :
    Forest fq.length (fq.map Prod.snd).sum (leavesOf fq) (entriesOf fq) where
  count := by simp [leavesOf, entriesOf]; omega
  leaves x hx := ⟨_, _, by simp [leavesOf, List.getElem?_eq_getElem hx]; exact ⟨rfl, rfl⟩⟩
  distinct := by
    have hsyms : (leavesOf fq).filterMap Node.symbol? = fq.map Prod.fst := by
      simp [leavesOf, List.filterMap_map, Function.comp_def, Node.symbol?]
    exact hsyms ▸ hd
  internals x hx hlt := absurd hlt (by simpa [leavesOf] using hx)
  parents := by
    have hids : (entriesOf fq).map Entry.id = List.range fq.length := by
      simp [entriesOf, Function.comp_def, List.range_eq_range']
    have hnone : (leavesOf fq).flatMap Node.children = [] := by
      simp [leavesOf, List.flatMap_map, Node.children]
    rw [hids, hnone]
    simp [leavesOf]
  entries e he := by
    obtain ⟨⟨p, i⟩, hp, rfl⟩ := List.mem_map.mp he
    simp [weightAt, leavesOf, List.mk_mem_zipIdx_iff_getElem?.mp hp, Node.weight]
  sum := by
    rw [entriesOf, List.map_map]
    exact congrArg List.sum (by
      rw [← List.zipIdx_map_fst 0 fq, List.map_map]; simp [Function.comp_def])
  widths nd hnd := by
    obtain ⟨p, hp, rfl⟩ := List.mem_map.mp hnd
    exact List.single_le_sum (by simp) _ (List.mem_map_of_mem hp)

theorem Forest.id_lt {k total : Nat} {nm : List Node} {wc : List Entry} (h : Forest k total nm wc) {e : Entry}
    (he : e ∈ wc) : e.id < nm.length :=
  List.mem_range.mp (h.parents.subset (List.mem_append_right _ (List.mem_map_of_mem he)))

theorem Forest.of_perm {k total : Nat} {nm : List Node} {wc wc' : List Entry} (h : Forest k total nm wc)
    (hp : wc.Perm wc') : Forest k total nm wc' :=
  { h with
    count := hp.length_eq ▸ h.count
    parents := ((hp.symm.map Entry.id).append_left _).trans h.parents
    entries := fun e he => h.entries e (hp.symm.subset he)
    sum := (hp.symm.map Entry.weight).sum_eq.trans h.sum }

/-- One merge: the two entries taken become the children of a new cell, which takes their place. -/
theorem Forest.merge {k total : Nat} {nm : List Node} {a b : Entry} {wc : List Entry}
    (h : Forest k total nm (a :: b :: wc)) :
    Forest k total (nm ++ [.internal a.id b.id (a.weight + b.weight)])
      (⟨a.weight + b.weight, nm.length⟩ :: wc) where
  count := by have := h.count; simp at this ⊢; omega
  leaves x hx := by
    obtain ⟨sym, w, hc⟩ := h.leaves x hx
    exact ⟨sym, w, List.getElem?_append_left (List.getElem?_eq_some_iff.mp hc).1 ▸ hc⟩
  distinct := by simpa [List.filterMap_cons, Node.symbol?] using h.distinct
  internals x hx hlt := by
    rcases Nat.lt_or_ge x nm.length with hold | hnew
    · obtain ⟨l, r, hc, hl, hr⟩ := h.internals x hx hold
      refine ⟨l, r, ?_, hl, hr⟩
      rw [weightAt_append (by omega), weightAt_append (by omega), List.getElem?_append_left hold, hc]
    · obtain rfl : x = nm.length := by simp at hlt; omega
      have ha := h.id_lt (e := a) (by simp)
      have hb := h.id_lt (e := b) (by simp)
      refine ⟨a.id, b.id, ?_, ha, hb⟩
      rw [weightAt_append ha, weightAt_append hb, ← h.entries a (by simp), ← h.entries b (by simp)]
      simp
  parents := by
    have hold := h.parents.append_right [nm.length]
    rw [List.length_append, List.length_singleton, List.range_succ]
    refine List.Perm.trans (List.perm_iff_count.mpr fun x => ?_) hold
    simp [List.count_cons, Node.children]
  entries e he := by
    rcases List.mem_cons.mp he with rfl | hold
    · simp [weightAt, Node.weight]
    · rw [weightAt_append (h.id_lt (by simp [hold]))]
      exact h.entries e (by simp [hold])
  sum := by have := h.sum; simp at this ⊢; omega
  widths nd hnd := by
    rcases List.mem_append.mp hnd with hold | hnew
    · exact h.widths nd hold
    · have := h.sum
      simp at this hnew
      simp [hnew, Node.weight]
      omega

/-- With one merge fewer than there are entries, a single entry is left. -/
theorem mergeLoop_forest {k total fuel : Nat} {nm : List Node} {wc : List Entry} (h : Forest k total nm wc)
    (hlen : wc.length = fuel + 1) :
    ∃ nm' e, mergeLoop fuel nm wc = (nm', [e]) ∧ Forest k total nm' [e] := by
  induction fuel generalizing nm wc with
  | zero =>
    obtain ⟨e, rfl⟩ := List.length_eq_one_iff.mp hlen
    exact ⟨nm, e, rfl, h⟩
  | succ fuel ih =>
    obtain ⟨e₁, es, rfl⟩ := List.exists_cons_of_length_eq_add_one hlen
    obtain ⟨a, wc₁, ha⟩ := takeMin_cons e₁ es
    have hpa := takeMin_perm ha
    have hlen₁ : wc₁.length = fuel + 1 := by have := hpa.length_eq; simp at this hlen; omega
    obtain ⟨e₂, es₂, rfl⟩ := List.exists_cons_of_length_eq_add_one hlen₁
    obtain ⟨b, wc₂, hb⟩ := takeMin_cons e₂ es₂
    have hpb := takeMin_perm hb
    have hlen₂ : wc₂.length = fuel := by have := hpb.length_eq; simp at this hlen₁; omega
    have hmerged := (h.of_perm (hpa.trans (hpb.cons a))).merge
    rw [mergeLoop, ha]
    simp only [hb]
    exact ih hmerged (by simp [hlen₂])

/-- The ids of a tree of `k` leaves: the children's, and the root's at the end. -/
theorem range_cells {k n : Nat} (hk : 1 ≤ k) (hn : n = 2 * k - 1) :
    List.range n = List.range (2 * k - 2) ++ [2 * k - 2] := by
  rw [← List.range_succ]; congr 1; omega

/-- The last entry is the root: every cell but the last has a parent. -/
theorem Forest.treeOf {k total : Nat} {nm : List Node} {e : Entry} (h : Forest k total nm [e])
    (hk : 1 ≤ k) (htotal : total < 2 ^ 32) : TreeOf k nm (some e.id) := by
  have hcount : nm.length = 2 * k - 1 := by have := h.count; simp at this; omega
  have hlast : 2 * k - 2 ∉ nm.flatMap Node.children := by
    intro hmem
    obtain ⟨nd, hnd, hchild⟩ := List.mem_flatMap.mp hmem
    obtain ⟨x, hx⟩ := List.mem_iff_getElem?.mp hnd
    have hxlt := (List.getElem?_eq_some_iff.mp hx).1
    rcases Nat.lt_or_ge x k with hleaf | hint
    · obtain ⟨sym, w, hc⟩ := h.leaves x hleaf
      rw [hc] at hx
      cases hx
      simp [Node.children] at hchild
    · obtain ⟨l, r, hc, hl, hr⟩ := h.internals x hint hxlt
      rw [hc] at hx
      cases hx
      simp [Node.children] at hchild
      omega
  have htop : e.id = 2 * k - 2 := by
    have hmem : 2 * k - 2 ∈ nm.flatMap Node.children ++ [e.id] :=
      h.parents.symm.subset (List.mem_range.mpr (by omega))
    simpa [hlast, eq_comm] using hmem
  exact {
    nonempty := hk
    count := hcount
    top := congrArg some htop
    leaves := h.leaves
    distinct := h.distinct
    internals := fun x hx hlt => h.internals x hx (by omega)
    parents := by
      have := h.parents
      rw [range_cells hk hcount, List.map_singleton, htop] at this
      exact (List.perm_append_right_iff _).mp this
    widths := fun nd hnd => Nat.lt_of_le_of_lt (h.widths nd hnd) htotal }

theorem buildTree_nil : buildTree [] = ([], none) := rfl

/-- A text that is not empty builds a tree with one leaf per distinct symbol (R157). -/
theorem buildTree_treeOf {t : List Symbol} (hne : t ≠ []) (hlen : t.length < 2 ^ 32) :
    TreeOf (frequencies t).length (buildTree t).1 (buildTree t).2 := by
  have hpos : 1 ≤ (frequencies t).length := List.length_pos_iff.mpr (frequencies_ne_nil hne)
  obtain ⟨nm, e, hloop, hforest⟩ := mergeLoop_forest (fuel := (frequencies t).length - 1)
    (forest_leaves (nodup_frequencies t)) (by simp [entriesOf]; omega)
  rw [buildTree, hloop]
  exact hforest.treeOf hpos (sum_frequencies t ▸ hlen)

/-- Every text of fewer than 2^32 symbols builds a legal tree state. -/
theorem buildTree_treeOk {t : List Symbol} (hlen : t.length < 2 ^ 32) : TreeOk (buildTree t).1 (buildTree t).2 := by
  by_cases hne : t = []
  · exact .inl (by rw [hne, buildTree_nil]; exact ⟨rfl, rfl⟩)
  · exact .inr ⟨_, buildTree_treeOf hne hlen⟩

end Sys2Proof.Proofs
end

section
/-! PROOFS. The table of a legal tree fits the format (10_state.md R29, 43_code_table.md R171). -/

namespace Sys2Proof.Proofs

open Sys2Proof.Machine

/-! ## The walk, one equation per kind of cell (R171) -/

theorem walk_leaf {nm : List Node} {x w : Nat} {sym : Symbol} (h : nm[x]? = some (.leaf sym w)) (fuel : Nat)
    (path : Bits) : walk nm (fuel + 1) x path = .ok [⟨sym, path⟩] := by
  simp [walk, h]

theorem walk_internal {nm : List Node} {x l r w : Nat} (h : nm[x]? = some (.internal l r w)) (fuel : Nat)
    (path : Bits) (rows : List Row) : walk nm (fuel + 1) x path = .ok rows ↔
      ∃ a b, walk nm fuel l (path ++ [false]) = .ok a ∧ walk nm fuel r (path ++ [true]) = .ok b ∧ rows = a ++ b := by
  simp only [walk, h, bind_eq_ok, pure, Except.pure, Except.ok.injEq]
  constructor
  · rintro ⟨a, ha, b, hb, rfl⟩
    exact ⟨a, b, ha, hb, rfl⟩
  · rintro ⟨a, b, ha, hb, rfl⟩
    exact ⟨a, ha, b, hb, rfl⟩

/-- A walk that answers met a leaf, or an internal cell whose two subtrees answer. -/
theorem walk_cases {nm : List Node} {fuel x : Nat} {path : Bits} {rows : List Row}
    (h : walk nm fuel x path = .ok rows) : ∃ n, fuel = n + 1 ∧
      ((∃ sym w, nm[x]? = some (.leaf sym w) ∧ rows = [⟨sym, path⟩]) ∨
       ∃ l r w a b, nm[x]? = some (.internal l r w) ∧ walk nm n l (path ++ [false]) = .ok a ∧
         walk nm n r (path ++ [true]) = .ok b ∧ rows = a ++ b) := by
  cases fuel with
  | zero => cases h
  | succ n =>
    refine ⟨n, rfl, ?_⟩
    cases hx : nm[x]? with
    | none => simp [walk, hx] at h
    | some nd =>
      cases nd with
      | leaf sym w =>
        rw [walk_leaf hx] at h
        cases h
        exact .inl ⟨sym, w, rfl, rfl⟩
      | internal l r w =>
        obtain ⟨a, b, ha, hb, hrows⟩ := (walk_internal hx n path rows).mp h
        exact .inr ⟨l, r, w, a, b, rfl, ha, hb, hrows⟩

/-- How many rows a subtree has depends neither on the path to it nor on the fuel. -/
theorem walk_length_eq {nm : List Node} {fuel fuel' x : Nat} {path path' : Bits} {rows rows' : List Row}
    (h : walk nm fuel x path = .ok rows) (h' : walk nm fuel' x path' = .ok rows') : rows.length = rows'.length := by
  induction fuel generalizing fuel' x path path' rows rows' with
  | zero => cases h
  | succ n ih =>
    obtain ⟨m, rfl, -⟩ := walk_cases h'
    cases hx : nm[x]? with
    | none => simp [walk, hx] at h
    | some nd =>
      cases nd with
      | leaf sym w =>
        rw [walk_leaf hx] at h h'
        cases h
        cases h'
        rfl
      | internal l r w =>
        obtain ⟨a, b, ha, hb, rfl⟩ := (walk_internal hx n path rows).mp h
        obtain ⟨a', b', ha', hb', rfl⟩ := (walk_internal hx m path' rows').mp h'
        rw [List.length_append, List.length_append, ih ha ha', ih hb hb']

/-- Every internal cell on the way to a leaf adds a bit to its code and at least one row to the table. -/
theorem walk_code_length {nm : List Node} {fuel x : Nat} {path : Bits} {rows : List Row}
    (h : walk nm fuel x path = .ok rows) :
    1 ≤ rows.length ∧ ∀ r ∈ rows, r.code.length + 1 ≤ path.length + rows.length := by
  induction fuel generalizing x path rows with
  | zero => cases h
  | succ n ih =>
    obtain ⟨m, hm, ⟨sym, w, -, rfl⟩ | ⟨l, r, w, a, b, -, ha, hb, rfl⟩⟩ := walk_cases h
    · simp
    · cases hm
      obtain ⟨hapos, hacode⟩ := ih ha
      obtain ⟨hbpos, hbcode⟩ := ih hb
      rw [List.length_append]
      refine ⟨by omega, fun row hrow => ?_⟩
      rcases List.mem_append.mp hrow with hleft | hright
      · have := hacode row hleft; simp at this; omega
      · have := hbcode row hright; simp at this; omega

/-! ## Walking a legal tree (R28) -/

theorem children_lt {k : Nat} {nm : List Node} {root : Option Nat} (h : TreeOf k nm root) {x l r w : Nat}
    (hx : nm[x]? = some (.internal l r w)) : l < x ∧ r < x := by
  have hlt := (List.getElem?_eq_some_iff.mp hx).1
  rcases Nat.lt_or_ge x k with hleaf | hint
  · obtain ⟨sym, v, hc⟩ := h.leaves x hleaf
    rw [hc] at hx
    cases hx
  · obtain ⟨l', r', hc, hl, hr⟩ := h.internals x hint (h.count ▸ hlt)
    rw [hc] at hx
    cases hx
    exact ⟨hl, hr⟩

/-- From every cell of a legal tree the walk answers: children have smaller ids, so the id bounds the depth. -/
theorem walk_answers {k : Nat} {nm : List Node} {root : Option Nat} (h : TreeOf k nm root) {fuel x : Nat}
    (hx : x < nm.length) (hfuel : x < fuel) (path : Bits) : ∃ rows, walk nm fuel x path = .ok rows := by
  induction fuel generalizing x path with
  | zero => omega
  | succ n ih =>
    rcases Nat.lt_or_ge x k with hleaf | hint
    · obtain ⟨sym, w, hc⟩ := h.leaves x hleaf
      exact ⟨_, walk_leaf hc n path⟩
    · obtain ⟨l, r, hc, hl, hr⟩ := h.internals x hint (h.count ▸ hx)
      obtain ⟨a, ha⟩ := ih (x := l) (by omega) (by omega) (path ++ [false])
      obtain ⟨b, hb⟩ := ih (x := r) (by omega) (by omega) (path ++ [true])
      exact ⟨_, (walk_internal hc n path _).mpr ⟨a, b, ha, hb, rfl⟩⟩

/-- What a cell adds up to when node `x` counts `f x` rows: a leaf is one row, an internal cell has its children's. -/
def rowsBelow (f : Nat → Nat) : Node → Nat
  | .leaf _ _ => 1
  | .internal l r _ => f l + f r

theorem sum_rowsBelow (f : Nat → Nat) (nm : List Node) : (nm.map (rowsBelow f)).sum =
    (nm.filterMap Node.symbol?).length + ((nm.flatMap Node.children).map f).sum := by
  induction nm with
  | nil => rfl
  | cons nd nm ih =>
    cases nd <;> simp [List.filterMap_cons, rowsBelow, Node.symbol?, Node.children, ih] <;> omega

/-- A count of rows that adds up at every cell counts at the root as many rows as there are leaves: summed over all cells,
every cell but the root is some cell's child exactly once. -/
theorem rows_at_root {k : Nat} {nm : List Node} {root : Option Nat} (h : TreeOf k nm root) {f : Nat → Nat}
    (hf : ∀ x nd, nm[x]? = some nd → f x = rowsBelow f nd) :
    f (2 * k - 2) = (nm.filterMap Node.symbol?).length := by
  have hcells : (List.range nm.length).map f = nm.map (rowsBelow f) :=
    List.ext_getElem (by simp) fun x hx hx' => by
      simpa using hf x _ (List.getElem?_eq_getElem (by simpa using hx'))
  have hsum := congrArg List.sum hcells
  rw [sum_rowsBelow, (h.parents.map f).sum_eq, range_cells h.nonempty h.count] at hsum
  simp at hsum
  omega

theorem length_le_of_nodup_symbols {l : List Symbol} (h : l.Nodup) : l.length ≤ rowsMax := by
  have hsub : l.map BitVec.toNat ⊆ List.range rowsMax := fun n hn => by
    obtain ⟨x, -, rfl⟩ := List.mem_map.mp hn
    exact List.mem_range.mpr x.isLt
  have hnodup : (l.map BitVec.toNat).Nodup := h.map fun _ _ => BitVec.eq_of_toNat_eq
  simpa using (hnodup.subperm hsub).length_le

/-- The walk of a legal tree from its root has one row per leaf. -/
theorem walk_root_length {k : Nat} {nm : List Node} {root : Option Nat} (h : TreeOf k nm root) {fuel : Nat}
    {path : Bits} {rows : List Row} (hw : walk nm fuel (2 * k - 2) path = .ok rows) :
    rows.length = (nm.filterMap Node.symbol?).length := by
  choose! rowsAt hrowsAt using fun x (hx : x < nm.length) => walk_answers h hx hx []
  have hroot : 2 * k - 2 < nm.length := by have := h.nonempty; have := h.count; omega
  rw [walk_length_eq hw (hrowsAt _ hroot)]
  refine rows_at_root h (f := fun x => (rowsAt x).length) fun x nd hx => ?_
  have hlt := (List.getElem?_eq_some_iff.mp hx).1
  obtain ⟨n, -, ⟨sym, w, hc, hrows⟩ | ⟨l, r, w, a, b, hc, ha, hb, hrows⟩⟩ := walk_cases (hrowsAt x hlt)
  · rw [hc] at hx
    cases hx
    simp [hrows, rowsBelow]
  · rw [hc] at hx
    cases hx
    obtain ⟨hl, hr⟩ := children_lt h hc
    simp only [hrows, List.length_append, rowsBelow]
    rw [walk_length_eq ha (hrowsAt l (by omega)), walk_length_eq hb (hrowsAt r (by omega))]

/-- The table of a legal tree state fits the format. -/
theorem buildTable_tableOk {nm : List Node} {root : Option Nat} {ct : List Row} (h : TreeOk nm root)
    (hct : buildTable nm root = .ok ct) : TableOk ct := by
  obtain ⟨-, rfl⟩ | ⟨k, hk⟩ := h
  · cases hct
    exact ⟨Nat.zero_le _, nofun⟩
  · rw [hk.top] at hct
    have hrows : ct.length ≤ rowsMax := (walk_root_length hk hct).trans_le (length_le_of_nodup_symbols hk.distinct)
    refine ⟨hrows, fun r hr => ?_⟩
    have := (walk_code_length hct).2 r hr
    simp [rowsMax, lenMax] at this hrows ⊢
    omega

end Sys2Proof.Proofs
end

section
/-! PROOFS. How a command can end, said once, and what each ending writes (10_state.md R20, 45_system.md R225,
60_exceptions.md R230). -/

namespace Sys2Proof.Proofs

open Sys2Proof.Machine Sys2Proof.Spec

/-! ## Reading at the cursor (41_bit_unpacker.md R130) -/

/-- Reading keeps the bits, and a cursor within them stays within them. -/
structure Advances (u u' : Unpacker) : Prop where
  bits : u'.bits = u.bits
  cursor : u.pos ≤ u.bits.length → u'.pos ≤ u.bits.length

theorem Advances.refl (u : Unpacker) : Advances u u := ⟨rfl, id⟩

theorem Advances.trans {u v w : Unpacker} (h : Advances u v) (h' : Advances v w) : Advances u w :=
  ⟨h'.bits.trans h.bits, fun hu => h.bits ▸ h'.cursor (h.bits.symm ▸ h.cursor hu)⟩

theorem advances_of_le_rem {u : Unpacker} {n : Nat} (h : n ≤ u.rem) : Advances u ⟨u.bits, u.pos + n⟩ :=
  ⟨rfl, fun hu => by simp [Unpacker.rem] at h ⊢; omega⟩

theorem read_eq_ok {u u' : Unpacker} {n : Nat} {b : Bits} (h : u.read n = .ok (b, u')) :
    b.length = n ∧ Advances u u' := by
  rcases Nat.lt_or_ge u.rem n with hshort | hfit
  · rw [read_underflow hshort] at h
    cases h
  · rw [read_ok hfit] at h
    cases h
    exact ⟨length_slice hfit, advances_of_le_rem hfit⟩

theorem readFixed_eq_ok {u u' : Unpacker} {w v : Nat} (h : u.readFixed w = .ok (v, u')) :
    v < 2 ^ w ∧ Advances u u' := by
  obtain ⟨⟨b, u₁⟩, hread, hv⟩ := bind_eq_ok.mp h
  cases hv
  obtain ⟨rfl, hadv⟩ := read_eq_ok hread
  exact ⟨val_lt b, hadv⟩

theorem readRows_eq_ok {count : Nat} {u u' : Unpacker} {rows : List Row} (h : readRows count u = .ok (rows, u')) :
    rows.length = count ∧ (∀ r ∈ rows, r.code.length ≤ lenMax) ∧ Advances u u' := by
  induction count generalizing u rows with
  | zero =>
    cases h
    exact ⟨rfl, nofun, .refl _⟩
  | succ count ih =>
    obtain ⟨⟨sym, u₁⟩, hsym, h⟩ := bind_eq_ok.mp h
    obtain ⟨⟨len, u₂⟩, hlen, h⟩ := bind_eq_ok.mp h
    obtain ⟨⟨code, u₃⟩, hcode, h⟩ := bind_eq_ok.mp h
    obtain ⟨⟨more, u₄⟩, hmore, h⟩ := bind_eq_ok.mp h
    cases h
    obtain ⟨-, hadv₁⟩ := readFixed_eq_ok hsym
    obtain ⟨hlt, hadv₂⟩ := readFixed_eq_ok hlen
    obtain ⟨hcodelen, hadv₃⟩ := read_eq_ok hcode
    obtain ⟨hcount, hcodes, hadv₄⟩ := ih hmore
    refine ⟨by simp [hcount], ?_, ((hadv₁.trans hadv₂).trans hadv₃).trans hadv₄⟩
    exact List.forall_mem_cons.mpr ⟨by simpa [hcodelen] using Nat.le_of_lt_succ hlt, hcodes⟩

/-- A table that was read fits the format: 16 bits hold the row count minus one and each code length (R181). -/
theorem readTable_eq_ok {u u' : Unpacker} {ct : List Row} (h : readTable u = .ok (ct, u')) :
    TableOk ct ∧ Advances u u' := by
  obtain ⟨⟨m, u₁⟩, hm, h⟩ := bind_eq_ok.mp h
  obtain ⟨hlt, hadv₁⟩ := readFixed_eq_ok hm
  obtain ⟨hcount, hcodes, hadv₂⟩ := readRows_eq_ok h
  exact ⟨⟨hcount ▸ hlt, hcodes⟩, hadv₁.trans hadv₂⟩

theorem symbolFor_eq_ok {ct : List Row} {u u' : Unpacker} {x : Symbol} (h : symbolFor ct u = .ok (x, u')) :
    Advances u u' := by
  unfold symbolFor at h
  split at h
  · rename_i r hr
    cases h
    have hmatch := (matchesAt_iff u r).mp (List.find?_some hr)
    exact advances_of_le_rem (by simpa [Unpacker.rem] using hmatch.length_le)
  · cases h

/-! ## The endings of a command (R230) -/

/-- `Completes i s u`: command `i` can complete from `s`, and `u` is the state it leaves, but for the response. -/
inductive Completes : Instr → State → State → Prop where
  | clr (s : State) : Completes .clr s s.cleared
  | stat (s : State) : Completes .stat s s
  | pkb {s : State} {bits : Bits} (fits : s.pkBits.length + bits.length ≤ pkCap s.cfg) :
      Completes (.pkb bits) s { s with pkBits := s.pkBits ++ bits }
  | pkf {s : State} {value : Word} {width : BitVec 8}
      (fits : s.pkBits.length + (lsbf value.toNat width.toNat).length ≤ pkCap s.cfg) :
      Completes (.pkf value width) s { s with pkBits := s.pkBits ++ lsbf value.toNat width.toNat }
  | pkfin (s : State) : Completes .pkfin s { s with buf := pack s.pkBits }
  | upld (s : State) : Completes .upld s { s with up := Unpacker.load s.buf }
  | uprf {s : State} {width : BitVec 8} {v : Nat} {u : Unpacker} (read : s.up.readFixed width.toNat = .ok (v, u)) :
      Completes (.uprf width) s { s with up := u }
  | uppk {s : State} {n : BitVec 16} {bits : Bits} (peek : s.up.peek n.toNat = .ok bits) : Completes (.uppk n) s s
  | uprb {s : State} {n : BitVec 16} {bits : Bits} {u : Unpacker} (read : s.up.read n.toNat = .ok (bits, u)) :
      Completes (.uprb n) s { s with up := u }
  | tbld (s : State) : Completes .tbld s { s with nm := (buildTree s.txt).1, root := (buildTree s.txt).2 }
  | ctbld {s : State} {ct : List Row} (build : buildTable s.nm s.root = .ok ct) : Completes .ctbld s { s with ct := ct }
  | ctser {s : State} (nonempty : s.ct ≠ []) (fits : s.pkBits.length + (serialise s.ct).length ≤ pkCap s.cfg) :
      Completes .ctser s { s with pkBits := s.pkBits ++ serialise s.ct }
  | ctdes {s : State} {ct : List Row} {u : Unpacker} (read : readTable s.up = .ok (ct, u)) :
      Completes .ctdes s { s with ct := ct, up := u }
  | ctcode {s : State} {sym : Symbol} {code : Bits} (found : codeFor s.ct sym = .ok code) : Completes (.ctcode sym) s s
  | ctsym {s : State} {sym : Symbol} {u : Unpacker} (found : symbolFor s.ct s.up = .ok (sym, u)) :
      Completes .ctsym s { s with up := u }
  | comp {s : State} {bits : Bits} (stream : artifactBits s.txt = .ok bits) (fits : bits.length ≤ pkCap s.cfg) :
      Completes .comp s { s.clearWorking with buf := pack bits }
  | decomp {s : State} {t : List Symbol} (text : artifactText s.cfg.txtCap s.buf = .ok t) :
      Completes .decomp s { s.clearWorking with txt := t }

/-- What R236 (b) empties when a command raises an error. -/
def failedOutput : Instr → State → State
  | .comp => State.emptyBuf
  | .decomp => State.emptyTxt
  | _ => id

/-- The three endings of a command that the model gives a next state: completed, an error (R236), a refusal (R240). -/
inductive Ends (i : Instr) (s : State) : State → Prop where
  | ok {u : State} (resp : Response) (completes : Completes i s u) : Ends i s (u.respond resp)
  | error (k : ErrorKind) : Ends i s ((failedOutput i s).raiseError k)
  | refused (r : RefuseReason) : Ends i s (s.refuseCommand r)

theorem ends_of_finish {i : Instr} {s t : State} {r : Except Stop (State × Response)}
    (hok : ∀ u resp, r = .ok (u, resp) → Completes i s u) (h : s.finish (failedOutput i) r = .next t) : Ends i s t := by
  obtain ⟨u, resp, hr, he⟩ | ⟨k, -, he⟩ | ⟨reason, -, he⟩ | ⟨f, -, he⟩ := finish_cases s (failedOutput i) r <;>
    rw [he] at h <;> cases h
  · exact .ok resp (hok u resp hr)
  · exact .error k
  · exact .refused reason

/-- Steps that only compute, followed by a state and a response. -/
theorem ends_of_bind {α : Type} {i : Instr} {s t : State} {x : Except Stop α} {f : α → State × Response}
    (hf : ∀ a, x = .ok a → Completes i s (f a).1)
    (h : s.finish (failedOutput i) (x >>= fun a => pure (f a)) = .next t) : Ends i s t := by
  refine ends_of_finish (fun u resp hr => ?_) h
  obtain ⟨a, hx, hfa⟩ := bind_eq_ok.mp hr
  have hu : (f a).1 = u := congrArg Prod.fst (Except.ok.inj hfa)
  exact hu ▸ hf a hx

theorem packerAppend_eq_ok {s u : State} {bits : Bits} (h : packerAppend s bits = .ok u) :
    s.pkBits.length + bits.length ≤ pkCap s.cfg ∧ u = { s with pkBits := s.pkBits ++ bits } := by
  unfold packerAppend at h
  split at h <;> cases h
  exact ⟨by omega, rfl⟩

/-- An append followed by the OK response. -/
theorem ends_of_append {i : Instr} {s t : State} {bits : Bits}
    (hi : s.pkBits.length + bits.length ≤ pkCap s.cfg → Completes i s { s with pkBits := s.pkBits ++ bits })
    (h : s.finish (failedOutput i) (packerAppend s bits >>= fun u => pure (u, okWords [])) = .next t) : Ends i s t := by
  refine ends_of_bind (fun u hu => ?_) h
  obtain ⟨hfits, rfl⟩ := packerAppend_eq_ok hu
  exact hi hfits

/-- Every command that goes on ends in one of the three ways. -/
theorem exec_ends {i : Instr} {s t : State} (h : exec i s = .next t) : Ends i s t := by
  cases i with
  | clr => cases h; exact .ok _ (.clr s)
  | stat => cases h; exact .ok _ (.stat s)
  | pkfin => cases h; exact .ok _ (.pkfin s)
  | upld => cases h; exact .ok _ (.upld s)
  | tbld => cases h; exact .ok _ (.tbld s)
  | pkb _ => exact ends_of_append .pkb h
  | pkf _ _ => exact ends_of_append .pkf h
  | ctser =>
    by_cases he : s.ct = []
    · simp only [exec, execCtser, he, if_true] at h
      exact ends_of_finish (r := .error (.refuse .emptyTable)) nofun h
    · simp only [exec, execCtser, he, if_false] at h
      exact ends_of_append (.ctser he) h
  | uprf _ => exact ends_of_bind (fun _ hx => .uprf hx) h
  | uppk _ => exact ends_of_bind (f := fun a => (s, okBits a)) (fun _ hx => .uppk hx) h
  | uprb _ => exact ends_of_bind (fun _ hx => .uprb hx) h
  | ctbld => exact ends_of_bind (fun _ hx => .ctbld hx) h
  | ctdes => exact ends_of_bind (fun _ hx => .ctdes hx) h
  | ctcode _ => exact ends_of_bind (f := fun a => (s, okBits a)) (fun _ hx => .ctcode hx) h
  | ctsym => exact ends_of_bind (fun _ hx => .ctsym hx) h
  | decomp => exact ends_of_bind (fun _ hx => .decomp hx) h
  | comp =>
    cases hbits : artifactBits s.txt with
    | error e => exact ends_of_finish (r := .error e) nofun (exec_comp_of_stop hbits ▸ h)
    | ok bits =>
      rcases Nat.lt_or_ge (pkCap s.cfg) bits.length with hlong | hfit
      · exact ends_of_finish (r := .error (.refuse .capacity)) nofun (exec_comp_of_exceeds hbits hlong ▸ h)
      · rw [exec_comp_of_fits hbits hfit] at h
        cases h
        exact .ok _ (.comp hbits hfit)

/-! ## The frame of a command (R20, R225) -/

/-- `u` differs from `s` only in what the table of R20 lists command `i` as a writer of; ST only where `i` is CLR. -/
structure Framed (i : Instr) (s u : State) : Prop where
  cfg : u.cfg = s.cfg
  inbox : u.inbox = s.inbox
  pk : writesPk i = false → u.pkBits = s.pkBits
  upBits : writesUpBits i = false → u.up.bits = s.up.bits
  upPos : writesUpPos i = false → u.up.pos = s.up.pos
  txt : writesTxt i = false → u.txt = s.txt
  buf : writesBuf i = false → u.buf = s.buf
  tree : writesTree i = false → u.nm = s.nm ∧ u.root = s.root
  ct : writesCt i = false → u.ct = s.ct

theorem Framed.refl (i : Instr) (s : State) : Framed i s s :=
  ⟨rfl, rfl, fun _ => rfl, fun _ => rfl, fun _ => rfl, fun _ => rfl, fun _ => rfl, fun _ => ⟨rfl, rfl⟩, fun _ => rfl⟩

theorem completes_framed {i : Instr} {s u : State} (h : Completes i s u) : Framed i s u := by
  cases h with
  | clr => exact ⟨rfl, rfl, nofun, nofun, nofun, nofun, nofun, nofun, nofun⟩
  | stat | uppk _ | ctcode _ => exact .refl _ s
  | pkb _ | pkf _ | ctser _ _ => exact { Framed.refl _ s with pk := nofun }
  | pkfin => exact { Framed.refl _ s with buf := nofun }
  | upld => exact { Framed.refl _ s with upBits := nofun, upPos := nofun }
  | uprf hread => exact { Framed.refl _ s with upBits := fun _ => (readFixed_eq_ok hread).2.bits, upPos := nofun }
  | uprb hread => exact { Framed.refl _ s with upBits := fun _ => (read_eq_ok hread).2.bits, upPos := nofun }
  | ctsym hfound => exact { Framed.refl _ s with upBits := fun _ => (symbolFor_eq_ok hfound).bits, upPos := nofun }
  | ctdes hread =>
    exact { Framed.refl _ s with upBits := fun _ => (readTable_eq_ok hread).2.bits, upPos := nofun, ct := nofun }
  | tbld => exact { Framed.refl _ s with tree := nofun }
  | ctbld _ => exact { Framed.refl _ s with ct := nofun }
  | comp _ _ => exact ⟨rfl, rfl, nofun, nofun, nofun, fun _ => rfl, nofun, nofun, nofun⟩
  | decomp _ => exact ⟨rfl, rfl, nofun, nofun, nofun, nofun, fun _ => rfl, nofun, nofun⟩

theorem failedOutput_framed (i : Instr) (s : State) : Framed i s (failedOutput i s) := by
  cases i with
  | comp => exact { Framed.refl _ s with buf := nofun }
  | decomp => exact { Framed.refl _ s with txt := nofun }
  | _ => exact .refl _ s

theorem Ends.framed {i : Instr} {s t : State} (h : Ends i s t) : Framed i s t := by
  cases h with
  | ok resp hdone => exact { completes_framed hdone with }
  | error k => exact { failedOutput_framed i s with }
  | refused r => exact { Framed.refl i s with }

theorem completes_st {i : Instr} {s u : State} (h : Completes i s u) (hi : i ≠ .clr) : u.st = s.st := by
  cases h with
  | clr => exact absurd rfl hi
  | _ => rfl

/-- A response of class OK means that the command completed, and only CLR then writes ST. -/
theorem Ends.st_eq {i : Instr} {s t : State} (h : Ends i s t) (hi : i ≠ .clr) (hout : classOf t.out = 0) : t.st = s.st := by
  cases h with
  | ok resp hdone => rw [respond_st, completes_st hdone hi]
  | error k => simp at hout
  | refused r => simp at hout

/-- Settles O17: every ending of a command keeps the frame. -/
theorem commandsWriteOnlyWhatTheStateTableLists : Obligations.CommandsWriteOnlyWhatTheStateTableLists := by
  intro i s t h
  have hends := exec_ends h
  obtain ⟨hcfg, hinbox, hpk, hbits, hpos, htxt, hbuf, htree, hct⟩ := hends.framed
  exact ⟨hcfg, hinbox, hpk, hbits, hpos, fun hi a => congrArg (·[a]?) (htxt hi), fun hi a => congrArg (·[a]?) (hbuf hi),
    htree, hct, hends.st_eq⟩

end Sys2Proof.Proofs
end

section
/-! PROOFS. The state family: reset values, the status register and the invariants (10_state.md R20 to R33). -/

namespace Sys2Proof.Proofs

open Sys2Proof.Machine

/-! ## Reset and CLR (R33, R220, R261) -/

/-- The word of CLR runs CLR whether HCC is latched or not (R242). -/
theorem select_clr (s : State) : s.select ⟨0, []⟩ = .ok .clr := by
  obtain ⟨-, h⟩ | ⟨-, -, h⟩ | ⟨-, h1, -⟩ | ⟨-, h0, -, -⟩ := select_cases s ⟨0, []⟩
  · exact h
  · exact h
  · cases h1
  · exact absurd rfl h0

/-- Settles O10: both interactions leave the cleared state, CLR with the OK response. -/
theorem resetAndClrGiveTheResetValues : Obligations.ResetAndClrGiveTheResetValues := by
  intro s rest
  refine ⟨fun h => ?_, fun h => ?_, rfl⟩
  · rw [step, h]
    rfl
  · rw [step, h]
    simp only [issue, select_clr]
    rfl

/-! ## The status register (R23, R242) -/

/-- ST is zero when its two fields and its reserved bits are. -/
theorem st_eq_zero {st : Word} (hreserved : st.extractLsb' 8 24 = 0) (herr : errField st = 0) (href : refField st = 0) :
    st = 0 := by
  have hhigh := congrArg BitVec.toNat hreserved
  have hlow := congrArg BitVec.toNat herr
  have hmid := congrArg BitVec.toNat href
  simp [errField, refField, Nat.shiftRight_eq_div_pow] at hhigh hlow hmid
  apply BitVec.eq_of_toNat_eq
  simp
  omega

/-- Settles O16: in a state that meets the invariants the reserved bits of ST are zero. -/
theorem unlatchedStatusIsZero : Obligations.UnlatchedStatusIsZero :=
  fun _ h => st_eq_zero h.reserved

theorem st_eq_zero_of_unlatched {s : State} (h : s.Inv) (hl : s.latched = false) : s.st = 0 := by
  obtain ⟨herr, href⟩ := (latched_eq_false_iff s).mp hl
  exact unlatchedStatusIsZero s h herr href

/-! ## The invariants, one update at a time (R32) -/

theorem inv_cleared {s : State} (h : s.cfg.ok = true) : s.cleared.Inv where
  params := h
  packer := Nat.zero_le _
  unpackerBytes := rfl
  unpackerCap := Nat.zero_le _
  cursor := Nat.le_refl _
  text := Nat.zero_le _
  bytes := Nat.zero_le _
  table := ⟨Nat.zero_le _, nofun⟩
  tree := .inl ⟨rfl, rfl⟩
  reserved := by simp
  errLegal := by simp [errField]
  refLegal := by simp [refField]
  oneFailure := .inl (by simp [errField])

/-- Settles O13: the reset state is the cleared state of its own parameters, which are in range. -/
theorem resetMeetsTheInvariants : Obligations.ResetMeetsTheInvariants :=
  inv_cleared (s := State.reset) (by decide)

/-- The invariants say nothing of the model's own fields for the host's side. -/
theorem inv_host {s : State} (h : s.Inv) (inbox : List HostAct) (out : HostOut) :
    State.Inv { s with inbox := inbox, out := out } :=
  { h with }

theorem inv_pkBits {s : State} (h : s.Inv) {bits : Bits} (hlen : s.pkBits.length + bits.length ≤ pkCap s.cfg) :
    State.Inv { s with pkBits := s.pkBits ++ bits } :=
  { h with packer := by simpa [pkCap] using hlen }

theorem inv_up {s : State} (h : s.Inv) {u : Unpacker} (hu : Advances s.up u) : State.Inv { s with up := u } :=
  { h with
    unpackerBytes := hu.bits ▸ h.unpackerBytes
    unpackerCap := hu.bits ▸ h.unpackerCap
    cursor := hu.bits ▸ hu.cursor h.cursor }

theorem inv_ct {s : State} (h : s.Inv) {ct : List Row} (hct : TableOk ct) : State.Inv { s with ct := ct } :=
  { h with table := hct }

theorem inv_txt {s : State} (h : s.Inv) {t : List Symbol} (ht : t.length ≤ s.cfg.txtCap) :
    State.Inv { s with txt := t } :=
  { h with text := ht }

theorem inv_buf {s : State} (h : s.Inv) {b : List Byte} (hb : b.length ≤ s.cfg.bufCap) :
    State.Inv { s with buf := b } :=
  { h with bytes := hb }

theorem inv_load {s : State} (h : s.Inv) : State.Inv { s with up := Unpacker.load s.buf } :=
  { h with
    unpackerBytes := by simp [Unpacker.load]
    unpackerCap := by simpa [Unpacker.load] using h.bytes
    cursor := Nat.zero_le _ }

theorem inv_tree {s : State} (h : s.Inv) :
    State.Inv { s with nm := (buildTree s.txt).1, root := (buildTree s.txt).2 } := by
  have hcap : s.cfg.txtCap < 2 ^ 32 := by
    have := h.params
    simp [Config.ok] at this
    omega
  exact { h with tree := buildTree_treeOk (Nat.lt_of_le_of_lt h.text hcap) }

theorem inv_clearWorking {s : State} (h : s.Inv) : s.clearWorking.Inv :=
  { h with
    packer := Nat.zero_le _
    unpackerBytes := rfl
    unpackerCap := Nat.zero_le _
    cursor := Nat.le_refl _
    table := ⟨Nat.zero_le _, nofun⟩
    tree := .inl ⟨rfl, rfl⟩ }

theorem inv_failedOutput {s : State} (h : s.Inv) (i : Instr) : (failedOutput i s).Inv := by
  cases i with
  | comp => exact inv_buf h (Nat.zero_le _)
  | decomp => exact inv_txt h (Nat.zero_le _)
  | _ => exact h

/-- What the invariants say of ST (R23, R242). -/
def LegalStatus (st : Word) : Prop :=
  st.extractLsb' 8 24 = 0 ∧ (errField st).toNat ≤ 3 ∧ (refField st).toNat ≤ 4 ∧ (errField st = 0 ∨ refField st = 0)

theorem legalStatus_setErr (k : ErrorKind) : LegalStatus (setErr 0 k.code) := by
  unfold LegalStatus
  cases k <;> decide

theorem legalStatus_setRef {r : RefuseReason} (hr : r ≠ .latched) : LegalStatus (setRef 0 r.code) := by
  unfold LegalStatus
  cases r with
  | latched => exact absurd rfl hr
  | badOpcode | badOperand | capacity | emptyTable => decide

theorem inv_st {s : State} (h : s.Inv) {st : Word} (hst : LegalStatus st) : State.Inv { s with st := st } := by
  obtain ⟨hreserved, herr, href, hone⟩ := hst
  exact { h with reserved := hreserved, errLegal := herr, refLegal := href, oneFailure := hone }

/-- An error of a command that ran unlatched is the one failure ST then holds. -/
theorem inv_raiseError {s : State} (h : s.Inv) (hst : s.st = 0) (k : ErrorKind) : (s.raiseError k).Inv :=
  inv_host (inv_st h (hst ▸ legalStatus_setErr k)) _ _

/-- A refusal either leaves a latched ST as it is or is the one failure ST then holds. -/
theorem inv_refuseCommand {s : State} (h : s.Inv) {r : RefuseReason} (hst : r = .latched ∨ s.st = 0) :
    (s.refuseCommand r).Inv := by
  by_cases hr : r = .latched
  · exact hr ▸ inv_host h _ _
  · have hlegal : LegalStatus (if r = .latched then s.st else setRef s.st r.code) := by
      rw [if_neg hr, hst.resolve_left hr]
      exact legalStatus_setRef hr
    exact inv_host (inv_st h hlegal) _ _

/-! ## The invariants along a step -/

theorem length_pack_le {bits : Bits} {cap : Nat} (h : bits.length ≤ 8 * cap) : (pack bits).length ≤ cap := by
  rw [length_pack]; omega

theorem decodeText_length {ct : List Row} {count : Nat} {u : Unpacker} {xs : List Symbol}
    (h : decodeText ct count u = .ok xs) : xs.length = count := by
  induction count generalizing u xs with
  | zero => cases h; rfl
  | succ count ih =>
    obtain ⟨⟨x, u₁⟩, -, h⟩ := bind_eq_ok.mp h
    obtain ⟨more, hmore, h⟩ := bind_eq_ok.mp h
    cases h
    rw [List.length_cons, ih hmore]

/-- The text of an artifact fits the capacity it was tested against (R206). -/
theorem artifactText_length {cap : Nat} {b : List Byte} {t : List Symbol} (h : artifactText cap b = .ok t) :
    t.length ≤ cap := by
  obtain ⟨⟨n, u⟩, -, h⟩ := bind_eq_ok.mp h
  dsimp only at h
  split at h
  · cases h
    exact Nat.zero_le _
  · split at h
    · cases h
    · obtain ⟨⟨ct, u₁⟩, -, htext⟩ := bind_eq_ok.mp h
      rw [decodeText_length htext]
      omega

theorem inv_completes {i : Instr} {s u : State} (h : s.Inv) (hdone : Completes i s u) : u.Inv := by
  cases hdone with
  | clr => exact inv_cleared h.params
  | stat | uppk _ | ctcode _ => exact h
  | pkb hfits | pkf hfits | ctser _ hfits => exact inv_pkBits h hfits
  | pkfin => exact inv_buf h (length_pack_le h.packer)
  | upld => exact inv_load h
  | uprf hread => exact inv_up h (readFixed_eq_ok hread).2
  | uprb hread => exact inv_up h (read_eq_ok hread).2
  | ctsym hfound => exact inv_up h (symbolFor_eq_ok hfound)
  | tbld => exact inv_tree h
  | ctbld hbuild => exact inv_ct h (buildTable_tableOk h.tree hbuild)
  | ctdes hread =>
    obtain ⟨hct, hu⟩ := readTable_eq_ok hread
    exact inv_ct (inv_up h hu) hct
  | comp _ hfits => exact inv_buf (inv_clearWorking h) (length_pack_le hfits)
  | decomp htext => exact inv_txt (inv_clearWorking h) (artifactText_length htext)

/-- Every ending of a command that ran unlatched keeps the invariants. -/
theorem inv_ends {i : Instr} {s t : State} (h : s.Inv) (hst : s.st = 0) (hends : Ends i s t) : t.Inv := by
  cases hends with
  | ok resp hdone => exact inv_host (inv_completes h hdone) _ _
  | error k =>
    refine inv_raiseError (inv_failedOutput h i) ?_ k
    cases i <;> exact hst
  | refused r => exact inv_refuseCommand h (.inr hst)

/-- An issued command keeps the invariants, whether it runs, is refused by the decoder or meets the latch (R242). -/
theorem inv_issue {c : Command} {s t : State} (h : s.Inv) (hissue : issue c s = .next t) : t.Inv := by
  unfold issue at hissue
  obtain ⟨hl, hsel⟩ | ⟨-, -, hsel⟩ | ⟨-, -, hsel⟩ | ⟨-, -, -, hsel⟩ := select_cases s c <;> rw [hsel] at hissue
  · have hst := st_eq_zero_of_unlatched h hl
    cases hdec : decode c with
    | error r =>
      rw [hdec] at hissue
      cases hissue
      exact inv_refuseCommand h (.inr hst)
    | ok i =>
      rw [hdec] at hissue
      exact inv_ends h hst (exec_ends hissue)
  · cases hissue
    exact inv_host (inv_completes h (.clr s)) _ _
  · cases hissue
    exact inv_host h _ _
  · cases hissue
    exact inv_refuseCommand h (.inl rfl)

theorem inv_hostWriteTxt {s u : State} {t : List Symbol} (h : s.Inv) (hwrite : s.hostWriteTxt t = .next u) : u.Inv := by
  unfold State.hostWriteTxt at hwrite
  split at hwrite <;> cases hwrite
  exact inv_host (inv_txt h ‹_›) _ _

theorem inv_hostWriteBuf {s u : State} {b : List Byte} (h : s.Inv) (hwrite : s.hostWriteBuf b = .next u) : u.Inv := by
  unfold State.hostWriteBuf at hwrite
  split at hwrite <;> cases hwrite
  exact inv_host (inv_buf h ‹_›) _ _

/-- Settles O14: case split on the interaction taken; a command through its endings, a host write within the capacity. -/
theorem stepKeepsTheInvariants : Obligations.StepKeepsTheInvariants := by
  intro s t h hstep
  cases hin : s.inbox with
  | nil =>
    rw [step, hin] at hstep
    cases hstep
    exact inv_host h _ _
  | cons a rest =>
    have htaken : State.Inv { s with inbox := rest } := inv_host h rest s.out
    rw [step, hin] at hstep
    cases a with
    | issue c => exact inv_issue htaken hstep
    | writeTxt x => exact inv_hostWriteTxt htaken hstep
    | writeBuf b => exact inv_hostWriteBuf htaken hstep
    | readTxt | readBuf =>
      cases hstep
      exact inv_host h _ _
    | reset =>
      cases hstep
      exact inv_cleared h.params

end Sys2Proof.Proofs
end

section
/-! PROOFS. The memory family: bit sequences cut into groups and joined again, and the host's interactions
(20_memory.md R53 to R55, R69 to R72). -/

namespace Sys2Proof.Proofs

open Sys2Proof.Machine

/-! ## Fields of numbers (R12) -/

theorem val_replicate_false (k : Nat) : val (List.replicate k false) = 0 := by
  induction k with
  | zero => rfl
  | succ k ih => rw [List.replicate_succ, val, ih]; rfl

/-- Zero bits at the high end do not change the number. -/
theorem val_append_replicate_false (s : Bits) (k : Nat) : val (s ++ List.replicate k false) = val s := by
  induction s with
  | nil => exact val_replicate_false k
  | cons b s ih => rw [List.cons_append, val, ih, val]

/-- The field of a bit sequence's number, in a width that holds it, is the sequence zero-padded. -/
theorem lsbf_val_of_length_le {s : Bits} {w : Nat} (h : s.length ≤ w) :
    lsbf (val s) w = s ++ List.replicate (w - s.length) false := by
  have hpadded := lsbf_val (s ++ List.replicate (w - s.length) false)
  rw [val_append_replicate_false, List.length_append, List.length_replicate, Nat.add_sub_cancel' h] at hpadded
  exact hpadded

/-- A field sees the low bits of its number only. -/
theorem lsbf_mod_two_pow (v w : Nat) : lsbf (v % 2 ^ w) w = lsbf v w :=
  List.map_congr_left fun i hi => by simp [Nat.testBit_mod_two_pow, List.mem_range.mp hi]

/-! ## Groups of `c` bits (R53, R83) -/

theorem chunks_nil {c : Nat} (hc : 0 < c) : chunks c [] = [] := by
  have hzero : (c - 1) / c = 0 := Nat.div_eq_of_lt (by omega)
  simp [chunks, hzero]

/-- The first `c` bits of a sequence are its first group. -/
theorem chunks_append {c : Nat} (hc : 0 < c) {a : Bits} (ha : a.length = c) (s : Bits) :
    chunks c (a ++ s) = val a :: chunks c s := by
  have hcount : ((a ++ s).length + (c - 1)) / c = (s.length + (c - 1)) / c + 1 := by
    rw [List.length_append, ha, Nat.add_assoc, Nat.add_div_left _ hc]
  rw [chunks, hcount, List.range_succ_eq_map, List.map_cons, List.map_map, chunks]
  congr 1
  · simp [← ha]
  · refine List.map_congr_left fun k _ => ?_
    rw [Function.comp_apply, Nat.mul_succ, Nat.add_comm, ← List.drop_drop, List.drop_left' ha]

/-- Fewer bits than a full group are one group. -/
theorem chunks_of_length_lt {c : Nat} {s : Bits} (hpos : 0 < s.length) (hlt : s.length < c) : chunks c s = [val s] := by
  have hcount : (s.length + (c - 1)) / c = 1 := Nat.div_eq_of_lt_le (by omega) (by omega)
  simp [chunks, hcount, List.take_of_length_le hlt.le]

/-- Joining the groups of a sequence gives it back, the last group padded to its full width. -/
theorem flatMap_lsbf_chunks {c : Nat} (hc : 0 < c) (s : Bits) :
    (chunks c s).flatMap (lsbf · c) =
      s ++ List.replicate (c * ((s.length + (c - 1)) / c) - s.length) false := by
  induction hn : s.length using Nat.strong_induction_on generalizing s with
  | _ n ih =>
  subst hn
  rcases Nat.lt_or_ge s.length c with hlt | hge
  · rcases Nat.eq_zero_or_pos s.length with hzero | hpos
    · obtain rfl := List.eq_nil_of_length_eq_zero hzero
      have hnone : (c - 1) / c = 0 := Nat.div_eq_of_lt (by omega)
      simp [chunks_nil hc, hnone]
    · have hone : (s.length + (c - 1)) / c = 1 := Nat.div_eq_of_lt_le (by omega) (by omega)
      rw [chunks_of_length_lt hpos hlt, hone, Nat.mul_one, List.flatMap_singleton, lsbf_val_of_length_le hlt.le]
  · obtain ⟨a, t, rfl, ha⟩ : ∃ a t, s = a ++ t ∧ a.length = c :=
      ⟨s.take c, s.drop c, (List.take_append_drop c s).symm, List.length_take_of_le hge⟩
    have hpad : c * (((a ++ t).length + (c - 1)) / c) - (a ++ t).length =
        c * ((t.length + (c - 1)) / c) - t.length := by
      rw [List.length_append, ha, Nat.add_assoc, Nat.add_div_left _ hc, Nat.mul_succ]
      omega
    rw [chunks_append hc ha, List.flatMap_cons, ih t.length (by simp; omega) t rfl, hpad, List.append_assoc, ← ha,
      lsbf_val]

/-- Cutting joined fields of width `c` gives the low `c` bits of each number back. -/
theorem chunks_flatMap_lsbf {c : Nat} (hc : 0 < c) (l : List Nat) :
    chunks c (l.flatMap (lsbf · c)) = l.map (· % 2 ^ c) := by
  induction l with
  | nil => exact chunks_nil hc
  | cons v l ih => rw [List.flatMap_cons, chunks_append hc (length_lsbf v c), val_lsbf, ih, List.map_cons]

/-- Settles O23: both directions are the round trips of groups of eight bits. -/
theorem packAndUnpackAreInverse : Obligations.PackAndUnpackAreInverse := by
  refine ⟨fun s => ?_, fun b => ?_⟩
  · calc unpack (pack s)
        = (chunks 8 s).flatMap (lsbf · 8) := by
          simp only [unpack, pack, List.flatMap_map, BitVec.toNat_ofNat, lsbf_mod_two_pow]
      _ = s ++ List.replicate (8 * ((s.length + 7) / 8) - s.length) false := flatMap_lsbf_chunks (by omega) s
  · calc pack (unpack b)
        = (chunks 8 ((b.map BitVec.toNat).flatMap (lsbf · 8))).map (BitVec.ofNat 8) := by
          rw [pack, unpack, List.flatMap_map]
      _ = ((b.map BitVec.toNat).map (· % 2 ^ 8)).map (BitVec.ofNat 8) := by rw [chunks_flatMap_lsbf (by omega)]
      _ = b := by
          have hbyte (x : Byte) : BitVec.ofNat 8 (x.toNat % 2 ^ 8) = x := by simp [Nat.mod_eq_of_lt x.isLt]
          simp only [List.map_map, Function.comp_def, hbyte, List.map_id']

/-! ## The host's interactions (R69, R71, R72) -/

theorem hostWriteTxt_of_length_le {s : State} {t : List Symbol} (h : t.length ≤ s.cfg.txtCap) :
    s.hostWriteTxt t = .next { s with txt := t, out := .nothing } :=
  if_pos h

theorem hostWriteBuf_of_length_le {s : State} {b : List Byte} (h : b.length ≤ s.cfg.bufCap) :
    s.hostWriteBuf b = .next { s with buf := b, out := .nothing } :=
  if_pos h

theorem step_of_inbox_nil {s : State} (h : s.inbox = []) : step s = s.idle := by
  rw [step, h]

/-- Settles O12: the step takes the interaction off the inbox and runs it; a write fits the capacity. -/
theorem hostInteractionsActOnWholeBuffers : Obligations.HostInteractionsActOnWholeBuffers := by
  intro s rest
  refine ⟨fun t hin hfits => ?_, fun b hin hfits => ?_, fun hin => ?_, fun hin => ?_, step_of_inbox_nil⟩ <;>
    rw [step, hin]
  · exact hostWriteTxt_of_length_le (s := { s with inbox := rest }) hfits
  · exact hostWriteBuf_of_length_le (s := { s with inbox := rest }) hfits
  · rfl
  · rfl

end Sys2Proof.Proofs
end

section
/-! PROOFS. The encoding family: bit sequences as payload words and back (30_encoding.md R83, R85 step 7). -/

namespace Sys2Proof.Proofs

/-! ## Payload words (R83) -/

theorem testBit_val (s : Bits) (i : Nat) : (val s).testBit i = s.getD i false := by
  rcases Nat.lt_or_ge i s.length with hi | hi
  · have hbit := getElem?_lsbf (val s) s.length i hi
    rw [lsbf_val] at hbit
    simp [hbit]
  · rw [Nat.testBit_lt_two_pow ((val_lt s).trans_le (Nat.pow_le_pow_right two_pos hi)), List.getD_eq_default _ _ hi]

theorem getD_toWords {b : Bits} {j : Nat} (hj : j < (toWords b).length) :
    (toWords b).getD j 0 = BitVec.ofNat 32 (val ((b.drop (32 * j)).take 32)) := by
  rw [List.getD_eq_getElem _ _ hj]
  simp [toWords, chunks]

/-- Settles O6: word `j` is the number of the sequence's `j`-th group of 32 bits. -/
theorem payloadWordsCarryBitsInOrder : Obligations.PayloadWordsCarryBitsInOrder := by
  refine fun b => ⟨length_toWords b, fun j i hj hi => ?_⟩
  rw [getD_toWords hj, BitVec.getLsbD_ofNat, testBit_val]
  simp [hi]

theorem length_flatMap_words (ws : List Word) : (ws.flatMap fun x => lsbf x.toNat 32).length = 32 * ws.length := by
  simp [List.length_flatMap, Nat.mul_comm]

theorem length_ofWords {n : Nat} {ws : List Word} (h : n ≤ 32 * ws.length) : (ofWords n ws).length = n := by
  rw [ofWords, List.length_take, length_flatMap_words, Nat.min_eq_left h]

theorem ofWords_toWords (b : Bits) : ofWords b.length (toWords b) = b := by
  have hflat : ((toWords b).flatMap fun x => lsbf x.toNat 32) = (chunks 32 b).flatMap (lsbf · 32) := by
    simp only [toWords, List.flatMap_map, BitVec.toNat_ofNat, lsbf_mod_two_pow]
  rw [ofWords, hflat, flatMap_lsbf_chunks (by omega), List.take_left]

/-- Zero bits that only fill the last group leave the groups as they are. -/
theorem chunks_append_replicate_false {c : Nat} {s : Bits} {k : Nat}
    (h : (s.length + k + (c - 1)) / c = (s.length + (c - 1)) / c) :
    chunks c (s ++ List.replicate k false) = chunks c s := by
  rw [chunks, chunks, List.length_append, List.length_replicate, h]
  refine List.map_congr_left fun j _ => ?_
  rw [List.drop_append, List.take_append, List.drop_replicate, List.take_replicate, val_append_replicate_false]

/-- A number of at most `r` bits leaves the rest of its field zero. -/
theorem lsbf_of_lt {v r w : Nat} (hv : v < 2 ^ r) (hr : r ≤ w) :
    lsbf v w = lsbf v r ++ List.replicate (w - r) false := by
  have h := lsbf_val_of_length_le (s := lsbf v r) (w := w) (by simpa using hr)
  rwa [val_lsbf_of_lt hv, length_lsbf] at h

theorem unusedBitsSet_eq_false {n : Nat} {ws : List Word} :
    unusedBitsSet n ws = false ↔ n % 32 ≠ 0 → (ws.getLastD 0).toNat < 2 ^ (n % 32) := by
  have hshift (x : Word) : x >>> (n % 32) = 0#32 ↔ x.toNat < 2 ^ (n % 32) := by
    simp [BitVec.toNat_eq, Nat.shiftRight_eq_div_pow, Nat.div_eq_zero_iff]
  simp [unusedBitsSet, hshift, List.getLastD_eq_getLast?]

/-- What payload words carry beyond the first `n` bits is zero where no unused bit is set (R85 step 7). -/
theorem flatMap_words_eq_ofWords_append {n : Nat} {ws : List Word} (hlen : ws.length = (n + 31) / 32)
    (hunused : unusedBitsSet n ws = false) :
    (ws.flatMap fun x => lsbf x.toNat 32) = ofWords n ws ++ List.replicate (32 * ws.length - n) false := by
  rcases Nat.eq_zero_or_pos (n % 32) with hfull | hpart
  · have hn : n = 32 * ws.length := by omega
    rw [ofWords, hn, ← length_flatMap_words, List.take_length]
    simp
  · have hne : ws ≠ [] := List.ne_nil_of_length_pos (by omega)
    obtain ⟨init, x, rfl⟩ := (List.eq_nil_or_concat' ws).resolve_left hne
    have hx : x.toNat < 2 ^ (n % 32) := by simpa using unusedBitsSet_eq_false.mp hunused hpart.ne'
    have hcount : n = 32 * init.length + n % 32 := by simp at hlen; omega
    have hflat : ((init ++ [x]).flatMap fun x => lsbf x.toNat 32) =
        (init.flatMap fun x => lsbf x.toNat 32) ++ lsbf x.toNat (n % 32) ++
          List.replicate (32 * (init ++ [x]).length - n) false := by
      rw [List.flatMap_append, List.flatMap_singleton, lsbf_of_lt hx (Nat.mod_lt n (by omega)).le, List.append_assoc,
        show 32 * (init ++ [x]).length - n = 32 - n % 32 by simp; omega]
    rw [ofWords, hflat, List.take_left' (by rw [List.length_append, length_flatMap_words, length_lsbf, ← hcount])]

theorem toWords_ofWords {n : Nat} {ws : List Word} (hlen : ws.length = (n + 31) / 32)
    (hunused : unusedBitsSet n ws = false) : toWords (ofWords n ws) = ws := by
  have hcount : (n + (32 * ws.length - n) + 31) / 32 = (n + 31) / 32 := by omega
  calc toWords (ofWords n ws)
      = (chunks 32 (ws.flatMap fun x => lsbf x.toNat 32)).map (BitVec.ofNat 32) := by
        rw [flatMap_words_eq_ofWords_append hlen hunused, chunks_append_replicate_false, toWords]
        rwa [length_ofWords (by omega)]
    _ = (chunks 32 ((ws.map BitVec.toNat).flatMap (lsbf · 32))).map (BitVec.ofNat 32) := by rw [List.flatMap_map]
    _ = ((ws.map BitVec.toNat).map (· % 2 ^ 32)).map (BitVec.ofNat 32) := by rw [chunks_flatMap_lsbf (by omega)]
    _ = ws := by
      have hword (x : Word) : BitVec.ofNat 32 (x.toNat % 2 ^ 32) = x := by simp [Nat.mod_eq_of_lt x.isLt]
      simp only [List.map_map, Function.comp_def, hword, List.map_id']

/-- The words of a bit sequence have no unused bit set. -/
theorem unusedBitsSet_toWords (b : Bits) : unusedBitsSet b.length (toWords b) = false := by
  refine unusedBitsSet_eq_false.mpr fun hpart => ?_
  have hlen := length_toWords b
  have hlast : (toWords b).getLastD 0 = (toWords b).getD ((toWords b).length - 1) 0 := by
    rw [List.getLastD_eq_getLast?, List.getLast?_eq_getElem?, List.getD_eq_getElem?_getD]
  rw [hlast, getD_toWords (by omega), BitVec.toNat_ofNat]
  have hgroup : ((b.drop (32 * ((toWords b).length - 1))).take 32).length = b.length % 32 := by
    rw [List.length_take, List.length_drop]
    omega
  exact (Nat.mod_le _ _).trans_lt (hgroup ▸ val_lt _)

end Sys2Proof.Proofs
end

section
/-! PROOFS. The encoding family: the decoder's tests and operand assembly, and decoding against encoding and against the
opcode table (30_encoding.md R81 to R94). -/

namespace Sys2Proof.Proofs

/-! ## The opcode rows (R84) and operand assembly (R87) -/

section Fields

variable {op w : BitVec 8} {n : BitVec 16} {p : List Word} {f : Format} {i : Instr}

/-- `Assembles w n p op f i`: opcode `op` has format `f`, and with fields `w`, `n` and payload `p` it is command `i`. -/
inductive Assembles (w : BitVec 8) (n : BitVec 16) (p : List Word) : BitVec 8 → Format → Instr → Prop where
  | clr : Assembles w n p 0x00 .Z .clr
  | stat : Assembles w n p 0x01 .Z .stat
  | pkb : Assembles w n p 0x10 .B (.pkb (ofWords n.toNat p))
  | pkf : Assembles w n p 0x11 .V (.pkf (p.head?.getD 0) w)
  | pkfin : Assembles w n p 0x12 .Z .pkfin
  | upld : Assembles w n p 0x20 .Z .upld
  | uprf : Assembles w n p 0x21 .W (.uprf w)
  | uppk : Assembles w n p 0x22 .N (.uppk n)
  | uprb : Assembles w n p 0x23 .N (.uprb n)
  | tbld : Assembles w n p 0x30 .Z .tbld
  | ctbld : Assembles w n p 0x40 .Z .ctbld
  | ctser : Assembles w n p 0x41 .Z .ctser
  | ctdes : Assembles w n p 0x42 .Z .ctdes
  | ctcode : Assembles w n p 0x43 .S (.ctcode n)
  | ctsym : Assembles w n p 0x44 .Z .ctsym
  | comp : Assembles w n p 0x50 .Z .comp
  | decomp : Assembles w n p 0x51 .Z .decomp

theorem Assembles.formatOf_eq (h : Assembles w n p op f i) : formatOf op = some f := by
  cases h <;> rfl

theorem Assembles.assemble_eq (h : Assembles w n p op f i) : assemble op w n p = .ok i := by
  cases h <;> rfl

/-- Every opcode that has a format assembles. -/
theorem exists_assembles (w : BitVec 8) (n : BitVec 16) (p : List Word) (h : formatOf op = some f) :
    ∃ i, Assembles w n p op f i := by
  have hbyte : op = BitVec.ofNat 8 op.toNat := by simp
  unfold formatOf at h
  split at h
  case h_18 => cases h
  all_goals
    rename_i hop
    rw [hbyte, hop]
    cases h
    exact ⟨_, by constructor⟩

/-! ## The tests of R85 -/

/-- The tests of R85 steps 3 to 7 on the fields and the payload of a command of format `f`. -/
structure OperandsOk (f : Format) (w : BitVec 8) (n : BitVec 16) (p : List Word) : Prop where
  wZero : f.wZero = true → w = 0
  nZero : f.nZero = true → n = 0
  width : f.wZero = false → w.toNat ≤ 32
  words : p.length = f.payloadWords n.toNat
  unused : f = .B → unusedBitsSet n.toNat p = false

theorem operandsOk_iff : OperandsOk f w n p ↔
    (f.wZero = true → w = 0) ∧ (f.nZero = true → n = 0) ∧ (f.wZero = false → w.toNat ≤ 32) ∧
      p.length = f.payloadWords n.toNat ∧ (f = .B → unusedBitsSet n.toNat p = false) :=
  ⟨fun ⟨hw, hn, hwidth, hwords, hunused⟩ => ⟨hw, hn, hwidth, hwords, hunused⟩,
    fun ⟨hw, hn, hwidth, hwords, hunused⟩ => ⟨hw, hn, hwidth, hwords, hunused⟩⟩

theorem operandsOk_Z : OperandsOk .Z w n p ↔ w = 0 ∧ n = 0 ∧ p = [] := by
  simp [operandsOk_iff, Format.wZero, Format.nZero, Format.payloadWords]

theorem operandsOk_W : OperandsOk .W w n p ↔ n = 0 ∧ w.toNat ≤ 32 ∧ p = [] := by
  simp [operandsOk_iff, Format.wZero, Format.nZero, Format.payloadWords]

theorem operandsOk_V : OperandsOk .V w n p ↔ n = 0 ∧ w.toNat ≤ 32 ∧ ∃ v, p = [v] := by
  simp [← List.length_eq_one_iff, operandsOk_iff, Format.wZero, Format.nZero, Format.payloadWords]

theorem operandsOk_N : OperandsOk .N w n p ↔ w = 0 ∧ p = [] := by
  simp [operandsOk_iff, Format.wZero, Format.nZero, Format.payloadWords]

theorem operandsOk_S : OperandsOk .S w n p ↔ w = 0 ∧ p = [] := by
  simp [operandsOk_iff, Format.wZero, Format.nZero, Format.payloadWords]

theorem operandsOk_B :
    OperandsOk .B w n p ↔ w = 0 ∧ p.length = (n.toNat + 31) / 32 ∧ unusedBitsSet n.toNat p = false := by
  simp [operandsOk_iff, Format.wZero, Format.nZero, Format.payloadWords]

/-! ## Decoding, one equation per outcome (R85) -/

theorem decode_of_formatOf_none (h : formatOf op = none) : decode ⟨mkHeader op w n, p⟩ = .error .badOpcode := by
  simp [decode, h]

theorem decode_of_operandsOk (hf : formatOf op = some f) (h : OperandsOk f w n p) :
    decode ⟨mkHeader op w n, p⟩ = assemble op w n p := by
  obtain ⟨hw, hn, hwidth, hwords, hunused⟩ := h
  simp only [decode, opField_mkHeader, wField_mkHeader, nField_mkHeader, hf]
  rw [if_neg (by simpa using hw), if_neg (by simpa using hn), if_neg (by simpa using hwidth),
    if_neg (by simpa using hwords), if_neg (by simpa using hunused)]

/-- Every test of R85 steps 3 to 7 that fails answers BAD_OPERAND, and one of them fails. -/
theorem decode_of_not_operandsOk (hf : formatOf op = some f) (h : ¬ OperandsOk f w n p) :
    decode ⟨mkHeader op w n, p⟩ = .error .badOperand := by
  rw [operandsOk_iff] at h
  simp only [decode, opField_mkHeader, wField_mkHeader, nField_mkHeader, hf]
  split_ifs <;> simp_all

/-- A command decodes to `i` exactly where its fields and payload pass the tests and assemble to `i`. -/
theorem decode_eq_ok :
    decode ⟨mkHeader op w n, p⟩ = .ok i ↔ ∃ f, Assembles w n p op f i ∧ OperandsOk f w n p := by
  constructor
  · intro h
    rcases hf : formatOf op with _ | f
    · simp [decode_of_formatOf_none hf] at h
    · by_cases hok : OperandsOk f w n p
      · obtain ⟨j, hrow⟩ := exists_assembles w n p hf
        rw [decode_of_operandsOk hf hok, hrow.assemble_eq] at h
        cases h
        exact ⟨f, hrow, hok⟩
      · simp [decode_of_not_operandsOk hf hok] at h
  · rintro ⟨f, hrow, hok⟩
    rw [decode_of_operandsOk hrow.formatOf_eq hok, hrow.assemble_eq]

theorem decode_eq_error {r : RefuseReason} :
    decode ⟨mkHeader op w n, p⟩ = .error r ↔
      (r = .badOpcode ∧ formatOf op = none) ∨ (r = .badOperand ∧ ∃ f, formatOf op = some f ∧ ¬ OperandsOk f w n p) := by
  rcases hf : formatOf op with _ | f
  · simp [decode_of_formatOf_none hf, eq_comm]
  · by_cases hok : OperandsOk f w n p
    · obtain ⟨i, hrow⟩ := exists_assembles w n p hf
      simp [decode_eq_ok.mpr ⟨f, hrow, hok⟩, hok]
    · simp [decode_of_not_operandsOk hf hok, hok, eq_comm]

theorem exists_mkHeader (h : Word) : ∃ op w n, mkHeader op w n = h :=
  ⟨_, _, _, mkHeader_fields h⟩

/-! ## Decoding against encoding (R84, R87) -/

/-- The encoding of what fields and payload assemble to is those fields and that payload. -/
theorem Assembles.encode_eq (hrow : Assembles w n p op f i) (hok : OperandsOk f w n p) :
    i.wellFormed = true ∧ encode i = ⟨mkHeader op w n, p⟩ := by
  cases hrow
  case clr | stat | pkfin | upld | tbld | ctbld | ctser | ctdes | ctsym | comp | decomp =>
    obtain ⟨rfl, rfl, rfl⟩ := operandsOk_Z.mp hok
    exact ⟨rfl, rfl⟩
  case uppk | uprb | ctcode =>
    obtain rfl := hok.wZero rfl
    obtain rfl := List.eq_nil_of_length_eq_zero hok.words
    exact ⟨rfl, rfl⟩
  case uprf =>
    obtain ⟨rfl, hw, rfl⟩ := operandsOk_W.mp hok
    exact ⟨decide_eq_true hw, rfl⟩
  case pkf =>
    obtain ⟨rfl, hw, v, rfl⟩ := operandsOk_V.mp hok
    exact ⟨decide_eq_true hw, rfl⟩
  case pkb =>
    obtain ⟨rfl, hlen, hunused⟩ := operandsOk_B.mp hok
    have hbits : (ofWords n.toNat p).length = n.toNat := length_ofWords (by omega)
    refine ⟨decide_eq_true (by omega), ?_⟩
    simp [encode, hbits, toWords_ofWords hlen hunused]

end Fields

/-- Settles O2: only a command's own fields and payload assemble to it. -/
theorem encodeInvertsDecode : Obligations.EncodeInvertsDecode := by
  rintro ⟨h, p⟩ i hdec
  obtain ⟨op, w, n, rfl⟩ := exists_mkHeader h
  obtain ⟨f, hrow, hok⟩ := decode_eq_ok.mp hdec
  exact hrow.encode_eq hok

theorem decode_encode_pkb {bits : Bits} (h : bits.length ≤ 65535) : decode (encode (.pkb bits)) = .ok (.pkb bits) := by
  have hn : (BitVec.ofNat 16 bits.length).toNat = bits.length := Nat.mod_eq_of_lt (by omega)
  have hrow := Assembles.pkb (w := 0) (n := BitVec.ofNat 16 bits.length) (p := toWords bits)
  rw [hn, ofWords_toWords] at hrow
  refine decode_eq_ok.mpr ⟨_, hrow, operandsOk_B.mpr ⟨rfl, ?_, ?_⟩⟩ <;> rw [hn]
  · exact length_toWords bits
  · exact unusedBitsSet_toWords bits

/-- Settles O1: each command's fields and payload pass the tests of R85 and assemble to it. -/
theorem decodeInvertsEncode : Obligations.DecodeInvertsEncode := by
  intro i hwf
  cases i
  case clr | stat | pkfin | upld | tbld | ctbld | ctser | ctdes | ctsym | comp | decomp => rfl
  case pkb bits => exact decode_encode_pkb (of_decide_eq_true hwf)
  case pkf v width => exact decode_eq_ok.mpr ⟨_, .pkf, operandsOk_V.mpr ⟨rfl, of_decide_eq_true hwf, v, rfl⟩⟩
  case uprf width => exact decode_eq_ok.mpr ⟨_, .uprf, operandsOk_W.mpr ⟨rfl, of_decide_eq_true hwf, rfl⟩⟩
  case uppk n => exact decode_eq_ok.mpr ⟨_, .uppk, operandsOk_N.mpr ⟨rfl, rfl⟩⟩
  case uprb n => exact decode_eq_ok.mpr ⟨_, .uprb, operandsOk_N.mpr ⟨rfl, rfl⟩⟩
  case ctcode sym => exact decode_eq_ok.mpr ⟨_, .ctcode, operandsOk_S.mpr ⟨rfl, rfl⟩⟩

/-! ## The opcode table (R84) -/

theorem opField_and (h m : Word) : opField (h &&& m) = opField h &&& opField m :=
  BitVec.extractLsb'_and

theorem mkHeader_and (op w op' w' : BitVec 8) (n n' : BitVec 16) :
    mkHeader op w n &&& mkHeader op' w' n' = mkHeader (op &&& op') (w &&& w') (n &&& n') := by
  have hw (h m : Word) : wField (h &&& m) = wField h &&& wField m := BitVec.extractLsb'_and
  have hn (h m : Word) : nField (h &&& m) = nField h &&& nField m := BitVec.extractLsb'_and
  rw [← mkHeader_fields (_ &&& _)]
  simp only [opField_and, hw, hn, opField_mkHeader, wField_mkHeader, nField_mkHeader]

theorem mkHeader_and_wMask (op w : BitVec 8) (n : BitVec 16) : mkHeader op w n &&& 0xFFFF00FF = mkHeader op 0 n := by
  rw [show (0xFFFF00FF : Word) = mkHeader (BitVec.allOnes 8) 0 (BitVec.allOnes 16) by decide, mkHeader_and,
    BitVec.and_allOnes, BitVec.and_allOnes, BitVec.ofNat_eq_ofNat, BitVec.and_zero]

theorem mkHeader_and_nMask (op w : BitVec 8) (n : BitVec 16) : mkHeader op w n &&& 0x0000FFFF = mkHeader op w 0 := by
  rw [show (0x0000FFFF : Word) = mkHeader (BitVec.allOnes 8) (BitVec.allOnes 8) 0 by decide, mkHeader_and,
    BitVec.and_allOnes, BitVec.and_allOnes, BitVec.ofNat_eq_ofNat, BitVec.and_zero]

/-- A row selects only headers with its own low byte. -/
theorem rowsSelected_eq_filter (h : Word) :
    rowsSelected h = (opTable.filter fun r => opField r.2.2 == opField h).filter fun r => h &&& r.2.1 == r.2.2 := by
  have hmask : ∀ r ∈ opTable, opField r.2.1 = BitVec.allOnes 8 := by decide
  rw [rowsSelected, List.filter_filter]
  refine List.filter_congr fun r hr => ?_
  have hop (hsel : h &&& r.2.1 = r.2.2) : opField r.2.2 = opField h := by
    rw [← hsel, opField_and, hmask r hr, BitVec.and_allOnes]
  simpa using hop

/-- The fields and the payload of a command give a header that selects its row alone. -/
theorem Assembles.rowsSelected_eq {op w : BitVec 8} {n : BitVec 16} {p : List Word} {f : Format} {i : Instr}
    (hrow : Assembles w n p op f i) (hok : OperandsOk f w n p) :
    ∃ mask pattern, rowsSelected (mkHeader op w n) = [(i.mnemonic, mask, pattern)] := by
  rw [rowsSelected_eq_filter, opField_mkHeader]
  cases hrow
  case clr | stat | pkfin | upld | tbld | ctbld | ctser | ctdes | ctsym | comp | decomp =>
    obtain ⟨rfl, rfl, rfl⟩ := operandsOk_Z.mp hok
    exact ⟨_, _, rfl⟩
  case pkf | uprf =>
    obtain rfl := hok.nZero rfl
    exact ⟨_, _, List.filter_cons_of_pos (beq_iff_eq.mpr (mkHeader_and_wMask _ _ _))⟩
  case pkb | uppk | uprb | ctcode =>
    obtain rfl := hok.wZero rfl
    exact ⟨_, _, List.filter_cons_of_pos (beq_iff_eq.mpr (mkHeader_and_nMask _ _ _))⟩

/-- Settles O3: the selected row is the one of the low byte, and the zero fields of the format meet its mask. -/
theorem decodedHeaderSelectsExactlyItsRow : Obligations.DecodedHeaderSelectsExactlyItsRow := by
  rintro ⟨h, p⟩ i hdec
  obtain ⟨op, w, n, rfl⟩ := exists_mkHeader h
  obtain ⟨f, hrow, hok⟩ := decode_eq_ok.mp hdec
  exact hrow.rowsSelected_eq hok

/-! ## What decoding refuses (R85, R90) -/

/-- The reserved opcodes are the bytes in no row of R84. -/
theorem formatOf_eq_none {op : BitVec 8} : formatOf op = none ↔ ∀ r ∈ opTable, op ≠ r.2.2.extractLsb' 0 8 := by
  constructor
  · rintro hnone r hr rfl
    have hrow : ∀ r ∈ opTable, formatOf (r.2.2.extractLsb' 0 8) ≠ none := by decide
    exact hrow r hr hnone
  · intro h
    rcases hf : formatOf op with _ | f
    · rfl
    · obtain ⟨i, hrow⟩ := exists_assembles 0 0 [] hf
      have hmem : ∃ r ∈ opTable, op = r.2.2.extractLsb' 0 8 := by cases hrow <;> decide
      obtain ⟨r, hr, hop⟩ := hmem
      exact absurd hop (h r hr)

theorem wZero_eq_true {f : Format} : f.wZero = true ↔ f ∈ [Format.Z, .N, .B, .S] := by cases f <;> decide

theorem wZero_eq_false {f : Format} : f.wZero = false ↔ f ∈ [Format.W, .V] := by cases f <;> decide

theorem nZero_eq_true {f : Format} : f.nZero = true ↔ f ∈ [Format.Z, .W, .V] := by cases f <;> decide

theorem payloadWords_eq (f : Format) (n : Nat) :
    f.payloadWords n = if f = .V then 1 else if f = .B then (n + 31) / 32 else 0 := by
  cases f <;> rfl

/-- The tests of R85 steps 3 to 7 fail exactly where one of them does, in the words of R82 to R85. -/
theorem not_operandsOk {w : BitVec 8} {n : BitVec 16} {p : List Word} {f : Format} : ¬ OperandsOk f w n p ↔
    (f ∈ [Format.Z, .N, .B, .S] ∧ w ≠ 0) ∨ (f ∈ [Format.Z, .W, .V] ∧ n ≠ 0) ∨ (f ∈ [Format.W, .V] ∧ 32 < w.toNat) ∨
    p.length ≠ (if f = .V then 1 else if f = .B then (n.toNat + 31) / 32 else 0) ∨
    (f = .B ∧ n.toNat % 32 ≠ 0 ∧ (p.getLastD 0).toNat / 2 ^ (n.toNat % 32) ≠ 0) := by
  have hdiv (a b : Nat) : a / 2 ^ b ≠ 0 ↔ ¬ a < 2 ^ b := by simp [Nat.div_eq_zero_iff]
  simp only [operandsOk_iff, wZero_eq_true, wZero_eq_false, nZero_eq_true, payloadWords_eq, unusedBitsSet_eq_false, hdiv,
    not_and_or, Classical.not_imp, not_le, ne_eq]

/-- Settles O4: BAD_OPCODE is an opcode without a format, BAD_OPERAND a failed test of R85 steps 3 to 7. -/
theorem decodeRefusesExactlyBadEncodings : Obligations.DecodeRefusesExactlyBadEncodings := by
  rintro ⟨h, p⟩
  obtain ⟨op, w, n, rfl⟩ := exists_mkHeader h
  refine ⟨?_, ?_, fun r hdec => ?_⟩
  · simp [decode_eq_error, formatOf_eq_none]
  · simp only [decode_eq_error, not_operandsOk, opField_mkHeader, wField_mkHeader, nField_mkHeader, reduceCtorEq,
      false_and, false_or, true_and]
  · exact (decode_eq_error.mp hdec).imp And.left And.left

/-! ## The examples of the spec (R94, V5, V13 to V20) -/

/-- Settles O5, by evaluating the decoder on each word. -/
theorem listedWordsDecodeAsListed : Obligations.ListedWordsDecodeAsListed :=
  ⟨rfl, rfl, rfl, rfl, rfl, rfl, rfl, rfl, rfl, rfl, rfl, rfl, rfl, rfl, rfl, rfl, rfl, rfl, rfl, rfl⟩

end Sys2Proof.Proofs
end

section
/-! PROOFS. The packer family: appends, their refusal, and packing the stream into BUF (40_bit_packer.md R110 to R115). -/

namespace Sys2Proof.Proofs

open Sys2Proof.Machine Sys2Proof.Spec

/-! ## Fields of numbers (R12, R56) -/

/-- The spec's field, written with division, is the model's, written with `Nat.testBit`. -/
theorem field_eq_lsbf (v w : Nat) : field v w = lsbf v w :=
  List.map_congr_left fun i _ => (Nat.testBit_eq_decide_div_mod_eq (x := v) (i := i)).symm

@[simp] theorem length_field (v w : Nat) : (field v w).length = w := by simp [field]

/-- A field sees only the bits below its width. -/
theorem field_mod_two_pow {v w n : Nat} (h : w ≤ n) : field (v % 2 ^ n) w = field v w := by
  rw [field_eq_lsbf, field_eq_lsbf]
  refine List.map_congr_left fun i hi => ?_
  have hlow : i < n := (List.mem_range.mp hi).trans_le h
  simp [Nat.testBit_mod_two_pow, hlow]

/-- Two fields in a row are the field of the combined number (R114 (c)). -/
theorem field_append_field {v w : Nat} (hv : v < 2 ^ w) (v' w' : Nat) :
    field v w ++ field v' w' = field (v + v' * 2 ^ w) (w + w') := by
  have hbit (i : Nat) : (v + v' * 2 ^ w).testBit i = if i < w then v.testBit i else v'.testBit (i - w) := by
    rw [Nat.add_comm, Nat.mul_comm, Nat.testBit_two_pow_mul_add _ hv]
  simp only [field_eq_lsbf, lsbf, List.range_add, List.map_append, List.map_map]
  congr 1 <;> refine List.map_congr_left fun i hi => ?_
  · rw [hbit, if_pos (List.mem_range.mp hi)]
  · simp [hbit]

/-! ## A serialised table in the spec's words (R59, R61) -/

theorem serialise_eq_tableBits (ct : List Row) : serialise ct = tableBits ct := by
  have hrow : serialiseRow = rowBits := funext fun r => by simp [serialiseRow, rowBits, field_eq_lsbf]
  rw [serialise, tableBits, hrow, field_eq_lsbf]

theorem length_tableBits (ct : List Row) :
    (tableBits ct).length = 16 + (ct.map fun r => 32 + r.code.length).sum := by
  have hrow (r : Row) : (rowBits r).length = 32 + r.code.length := by simp [rowBits]; omega
  simp [tableBits, List.length_flatMap, hrow]

/-! ## Appends: one command's two outcomes, and the others as that command (R110, R111, R176) -/

theorem exec_pkb_of_fits {s : State} {bits : Bits} (hfit : s.pkBits.length + bits.length ≤ 8 * s.cfg.bufCap) :
    exec (.pkb bits) s = .next { s with pkBits := s.pkBits ++ bits, out := okOut [] } := by
  rw [exec, execPkb, packerAppend_ok hfit]
  rfl

theorem exec_pkb_of_exceeds {s : State} {bits : Bits} (hlong : 8 * s.cfg.bufCap < s.pkBits.length + bits.length) :
    exec (.pkb bits) s = .next (s.refuseCommand .capacity) := by
  rw [exec, execPkb, packerAppend_refused hlong]
  rfl

theorem exec_pkf_eq_exec_pkb (s : State) (v : Word) (w : BitVec 8) :
    exec (.pkf v w) s = exec (.pkb (field v.toNat w.toNat)) s := by
  rw [field_eq_lsbf]
  rfl

theorem exec_ctser_eq_exec_pkb {s : State} (hct : s.ct ≠ []) : exec .ctser s = exec (.pkb (tableBits s.ct)) s := by
  rw [← serialise_eq_tableBits]
  simp only [exec, execCtser, hct, if_false]
  rfl

/-- Settles O19: the OK outcome of an append that fits. -/
theorem pkbAppendsItsBits : Obligations.PkbAppendsItsBits :=
  fun _ _ hfit => exec_pkb_of_fits hfit

/-- Settles O20: PKF is PKB of the field. -/
theorem pkfAppendsTheLowBits : Obligations.PkfAppendsTheLowBits := by
  intro s v w _ hfit
  rw [exec_pkf_eq_exec_pkb, exec_pkb_of_fits (by simpa using hfit)]

/-! ## Refusals (60_exceptions.md R240) -/

/-- A refusal while ST = 0 writes its code into ST.REF and answers it; the latch test's own reason is written nowhere. -/
theorem refuseCommand_of_st_eq_zero {s : State} {r : RefuseReason} (hst : s.st = 0) (hr : r ≠ .latched) :
    s.refuseCommand r = { s with st := BitVec.ofNat 32 (16 * r.code.toNat), out := refOut r.code.toNat } := by
  rw [State.refuseCommand, if_neg hr, hst]
  cases r <;> rfl

/-- Settles O21: each append is PKB of its bits, which are too many. -/
theorem appendsBeyondCapacityAreRefused : Obligations.AppendsBeyondCapacityAreRefused := by
  intro s hst
  have hrefused (bits : Bits) (hlong : 8 * s.cfg.bufCap < s.pkBits.length + bits.length) :
      exec (.pkb bits) s = .next { s with st := 0x30, out := refOut 3 } := by
    rw [exec_pkb_of_exceeds hlong, refuseCommand_of_st_eq_zero hst (by decide)]
    rfl
  refine ⟨hrefused, fun v w hlong => ?_, fun hct hlong => ?_⟩
  · rw [exec_pkf_eq_exec_pkb, hrefused _ (by simpa using hlong)]
  · rw [exec_ctser_eq_exec_pkb hct, hrefused _ (by rwa [length_tableBits])]

/-! ## PKFIN (R112, R53) -/

theorem exec_pkfin (s : State) : exec .pkfin s =
    .next { s with buf := pack s.pkBits, out := okOut [countWord 0x12 (pack s.pkBits).length] } :=
  rfl

theorem getD_pack {s : Bits} {k : Nat} (hk : k < (pack s).length) :
    (pack s).getD k 0 = BitVec.ofNat 8 (val ((s.drop (8 * k)).take 8)) := by
  rw [List.getD_eq_getElem _ _ hk]
  simp [pack, chunks]

/-- Settles O22: byte `k` is the number of the stream's `k`-th group of eight bits. -/
theorem pkfinPacksTheStreamIntoBytes : Obligations.PkfinPacksTheStreamIntoBytes := by
  refine fun s => ⟨_, _, exec_pkfin s, length_pack s.pkBits, fun k i hk hi => ?_, countWord_of_lt 0x12⟩
  rw [getD_pack hk, BitVec.getLsbD_ofNat, testBit_val]
  simp [hi]

/-! ## Packer commands in sequence (R114, R115) -/

theorem execAll_cons {i : Instr} {is : List Instr} {s t : State} (h : exec i s = .next t) :
    execAll (i :: is) s = execAll is t := by
  rw [execAll, h]

theorem execAll_singleton (i : Instr) (s : State) : execAll [i] s = exec i s := by
  cases h : exec i s <;> simp [execAll, h]

theorem execAll_pkb_pkb {s : State} {a b : Bits} (hfit : s.pkBits.length + (a ++ b).length ≤ 8 * s.cfg.bufCap) :
    execAll [.pkb a, .pkb b] s = exec (.pkb (a ++ b)) s := by
  rw [List.length_append] at hfit
  rw [execAll_cons (exec_pkb_of_fits (by omega)), execAll_singleton, exec_pkb_of_fits (by simp; omega),
    exec_pkb_of_fits (by simpa using hfit), List.append_assoc]

/-- Settles O24: PKF is PKB of its field, and two fields in a row are one field. -/
theorem appendsCompose : Obligations.AppendsCompose := by
  refine ⟨fun s a b hfit => execAll_pkb_pkb hfit, exec_pkf_eq_exec_pkb, fun s v v' w w' hw hv hfit => ?_⟩
  have hwidth : (w + w').toNat = w.toNat + w'.toNat := BitVec.toNat_add_of_lt (by omega)
  calc execAll [.pkf v w, .pkf v' w'] s
      = execAll [.pkb (field v.toNat w.toNat), .pkb (field v'.toNat w'.toNat)] s := by
        simp only [execAll, exec_pkf_eq_exec_pkb]
    _ = exec (.pkb (field v.toNat w.toNat ++ field v'.toNat w'.toNat)) s := execAll_pkb_pkb (by simpa using hfit)
    _ = exec (.pkf (BitVec.ofNat 32 (v.toNat + v'.toNat * 2 ^ w.toNat)) (w + w')) s := by
        rw [exec_pkf_eq_exec_pkb, BitVec.toNat_ofNat, hwidth, field_mod_two_pow hw, field_append_field hv]

/-- Settles O25: the second PKFIN packs everything appended since the packer was empty. -/
theorem pkfinKeepsThePackedStream : Obligations.PkfinKeepsThePackedStream := by
  intro s a b hempty hfit
  rw [execAll_cons (exec_pkb_of_fits (by rw [hempty, List.length_nil]; omega)), execAll_cons (exec_pkfin _),
    execAll_cons (exec_pkb_of_fits (by simpa [hempty] using hfit)), execAll_singleton, exec_pkfin]
  exact ⟨_, rfl, by simp [hempty], by simp [hempty]⟩

end Sys2Proof.Proofs
end

section
/-! PROOFS. The unpacker family: loading BUF, reads and peeks at the cursor, their underflow and how they compose
(41_bit_unpacker.md R130 to R138). -/

namespace Sys2Proof.Proofs

open Sys2Proof.Machine Sys2Proof.Spec

/-! ## Bits by position (R12, R54, R130) -/

/-- The number of a bit sequence as the sum of its bits' weights (R12). -/
theorem val_eq_sum (s : Bits) :
    val s = ((List.range s.length).map fun i => (s.getD i false).toNat * 2 ^ i).sum := by
  induction s with
  | nil => rfl
  | cons b s ih =>
    rw [val, ih, ← List.sum_map_mul_left, List.length_cons, List.range_succ_eq_map]
    simp [Function.comp_def, Nat.pow_succ', Nat.mul_left_comm]

/-- Byte `k` of a byte sequence is the `k`-th group of eight bits (R54). -/
theorem getElem?_unpack {b : List Byte} {k i : Nat} (hk : k < b.length) (hi : i < 8) :
    (unpack b)[8 * k + i]? = some ((b.getD k 0).getLsbD i) := by
  induction b generalizing k with
  | nil => cases hk
  | cons x b ih =>
    rw [unpack_cons]
    cases k with
    | zero =>
      rw [List.getElem?_append_left (by simp; omega), Nat.mul_zero, Nat.zero_add, getElem?_lsbf _ _ _ hi]
      rfl
    | succ k =>
      rw [List.getElem?_append_right (by simp; omega), length_lsbf, show 8 * (k + 1) + i - 8 = 8 * k + i by omega,
        ih (by simpa using hk), List.getD_cons_succ]

/-- The slice at the cursor, bit by bit. -/
theorem slice_eq_map {u : Unpacker} {n : Nat} (h : n ≤ u.rem) :
    u.slice n = (List.range n).map fun i => u.bits.getD (u.pos + i) false := by
  refine List.ext_getElem (by simp [length_slice h]) fun i hi _ => ?_
  rw [length_slice h] at hi
  have hin : u.pos + i < u.bits.length := by rw [Unpacker.rem] at h; omega
  simp [Unpacker.slice, List.getElem?_eq_getElem hin]

/-- The number of a slice as the spec's sum (R133). -/
theorem val_slice {u : Unpacker} {n : Nat} (h : n ≤ u.rem) :
    val (u.slice n) = ((List.range n).map fun i => (u.bits.getD (u.pos + i) false).toNat * 2 ^ i).sum := by
  rw [val_eq_sum, length_slice h]
  congr 1
  refine List.map_congr_left fun i hi => ?_
  have hbit : (u.slice n).getD i false = u.bits.getD (u.pos + i) false := by
    simp [Unpacker.slice, List.mem_range.mp hi]
  rw [hbit]

/-- After `n` of `n + m` remaining bits have been read, `m` remain. -/
theorem le_rem_of_add_le_rem {u : Unpacker} {n m : Nat} (h : n + m ≤ u.rem) :
    m ≤ Unpacker.rem ⟨u.bits, u.pos + n⟩ := by
  simp only [Unpacker.rem] at *
  omega

/-- A longer slice is a slice and the one after it (R137 (b)). -/
theorem slice_add (u : Unpacker) (n m : Nat) :
    u.slice (n + m) = u.slice n ++ Unpacker.slice ⟨u.bits, u.pos + n⟩ m := by
  simp only [Unpacker.slice, List.take_add, List.drop_drop]

/-- Loading packed bytes puts the packed bits at the cursor; the zero padding comes after them (R55). -/
theorem slice_load_pack (s : Bits) : (Unpacker.load (pack s)).slice s.length = s := by
  simp [Unpacker.load, Unpacker.slice, packAndUnpackAreInverse.1]

/-! ## Responses and error entry (R88, R236) -/

/-- The only nonzero field of an `OK` header is the length, in the upper half (R88). -/
theorem toNat_respHeader_ok (n : BitVec 16) : (respHeader 0 0 n).toNat = n.toNat * 2 ^ 16 := by
  have hfields : (respHeader 0 0 n).toNat = (((n.toNat <<< 8 ||| 0) <<< 4 ||| 0) <<< 2 ||| 0) <<< 2 ||| 0 := rfl
  rw [hfields]
  simp [Nat.shiftLeft_eq, Nat.mul_assoc]

theorem response_okBits (b : Bits) : HostOut.response (okBits b) = bitsOut b := by
  have hheader : respHeader 0 0 (BitVec.ofNat 16 b.length) = BitVec.ofNat 32 (65536 * b.length) := by
    refine BitVec.eq_of_toNat_eq ?_
    rw [toNat_respHeader_ok, BitVec.toNat_ofNat, BitVec.toNat_ofNat]
    omega
  rw [okBits, hheader, bitsOut]

theorem bitsOut_nil : bitsOut [] = okOut [] := rfl

/-- An error while ST = 0 writes its code into ST.ERR and answers it. -/
theorem raiseError_of_st_eq_zero {s : State} (hst : s.st = 0) (k : ErrorKind) :
    s.raiseError k = { s with st := BitVec.ofNat 32 k.code.toNat, out := errOut k.code.toNat } := by
  rw [State.raiseError, hst]
  cases k <;> rfl

/-! ## Peeking (R130, R132) -/

theorem peek_ok {u : Unpacker} {n : Nat} (h : n ≤ u.rem) : u.peek n = .ok (u.slice n) :=
  if_neg (Nat.not_lt.mpr h)

theorem peek_underflow {u : Unpacker} {n : Nat} (h : u.rem < n) : u.peek n = .error (.raise .underflow) :=
  if_pos h

/-! ## One equation per command and outcome (R131 to R135) -/

theorem exec_upld (s : State) : exec .upld s =
    .next { s with up := Unpacker.load s.buf, out := okOut [BitVec.ofNat 32 (8 * s.buf.length)] } := by
  rw [← length_unpack]
  rfl

section Reads

variable {s : State} {width : BitVec 8} {n : BitVec 16}

theorem exec_uprf_of_le_rem (h : width.toNat ≤ s.up.rem) : exec (.uprf width) s =
    .next { s with up := ⟨s.up.bits, s.up.pos + width.toNat⟩,
                   out := okOut [BitVec.ofNat 32 (val (s.up.slice width.toNat))] } := by
  rw [exec, execUprf, readFixed_ok h]
  rfl

theorem exec_uprf_of_rem_lt (h : s.up.rem < width.toNat) : exec (.uprf width) s = .next (s.raiseError .underflow) := by
  rw [exec, execUprf, readFixed_underflow h]
  rfl

theorem exec_uppk_of_le_rem (h : n.toNat ≤ s.up.rem) : exec (.uppk n) s =
    .next { s with out := bitsOut (s.up.slice n.toNat) } := by
  rw [exec, execUppk, peek_ok h, ← response_okBits]
  rfl

theorem exec_uppk_of_rem_lt (h : s.up.rem < n.toNat) : exec (.uppk n) s = .next (s.raiseError .underflow) := by
  rw [exec, execUppk, peek_underflow h]
  rfl

theorem exec_uprb_of_le_rem (h : n.toNat ≤ s.up.rem) : exec (.uprb n) s =
    .next { s with up := ⟨s.up.bits, s.up.pos + n.toNat⟩, out := bitsOut (s.up.slice n.toNat) } := by
  rw [exec, execUprb, read_ok h, ← response_okBits]
  rfl

theorem exec_uprb_of_rem_lt (h : s.up.rem < n.toNat) : exec (.uprb n) s = .next (s.raiseError .underflow) := by
  rw [exec, execUprb, read_underflow h]
  rfl

end Reads

/-! ## Loads, reads and peeks one at a time (R131 to R135, R138) -/

/-- Settles O26: the loaded bits are the bytes' bits in order. -/
theorem upldExpandsTheBuffer : Obligations.UpldExpandsTheBuffer :=
  fun s => ⟨unpack s.buf, exec_upld s, length_unpack s.buf, fun _ _ => getElem?_unpack⟩

/-- Settles O27: the field's number is the sum of its bits' weights. -/
theorem uprfReadsAnUnsignedField : Obligations.UprfReadsAnUnsignedField := by
  intro s width _ hrem
  rw [exec_uprf_of_le_rem hrem, val_slice hrem]

/-- Settles O28: both answer the slice at the cursor, and UPRB alone moves it. -/
theorem uppkPeeksAndUprbReads : Obligations.UppkPeeksAndUprbReads := by
  intro s n hrem
  rw [exec_uppk_of_le_rem hrem, exec_uprb_of_le_rem hrem, slice_eq_map hrem]
  exact ⟨rfl, rfl⟩

/-- Settles O29: the three short reads enter the same error. -/
theorem shortReadsUnderflow : Obligations.ShortReadsUnderflow := by
  intro s hst
  have hraise : s.raiseError .underflow = { s with st := 1, out := errOut 1 } := raiseError_of_st_eq_zero hst .underflow
  rw [← hraise]
  exact ⟨fun _ h => exec_uprf_of_rem_lt h, fun _ h => ⟨exec_uppk_of_rem_lt h, exec_uprb_of_rem_lt h⟩⟩

/-- Settles O30: zero bits always remain, the slice is empty, and the cursor moves by 0. -/
theorem zeroBitReadsNeverFail : Obligations.ZeroBitReadsNeverFail := by
  intro s
  have hwidth : (0 : BitVec 8).toNat ≤ s.up.rem := Nat.zero_le _
  have hn : (0 : BitVec 16).toNat ≤ s.up.rem := Nat.zero_le _
  rw [← bitsOut_nil]
  exact ⟨exec_uprf_of_le_rem hwidth, exec_uppk_of_le_rem hn, exec_uprb_of_le_rem hn, peek_ok hn, read_ok hn⟩

/-! ## Commands in sequence (R137) -/

theorem execOuts_cons {i : Instr} {is : List Instr} {s t : State} (h : exec i s = .next t) :
    execOuts (i :: is) s = (execOuts is t).map fun p => (t.out :: p.1, p.2) := by
  rw [execOuts, h]

/-- A peek and the read after it answer the slice at the cursor, the next read the slice after that (R137 (a), (b)). -/
theorem execOuts_uppk_uprb_uprb {s : State} {n m : BitVec 16} (h : n.toNat + m.toNat ≤ s.up.rem) :
    execOuts [.uppk n, .uprb n, .uprb m] s =
      some ([bitsOut (s.up.slice n.toNat), bitsOut (s.up.slice n.toNat),
             bitsOut (Unpacker.slice ⟨s.up.bits, s.up.pos + n.toNat⟩ m.toNat)],
        { s with up := ⟨s.up.bits, s.up.pos + n.toNat + m.toNat⟩,
                 out := bitsOut (Unpacker.slice ⟨s.up.bits, s.up.pos + n.toNat⟩ m.toNat) }) := by
  have hn : n.toNat ≤ s.up.rem := by omega
  rw [execOuts_cons (exec_uppk_of_le_rem hn), execOuts_cons (exec_uprb_of_le_rem ?_),
    execOuts_cons (exec_uprb_of_le_rem ?_)]
  · rfl
  · exact le_rem_of_add_le_rem h
  · exact hn

/-- Settles O31: the longer slice is the two shorter ones, and the cursor ends at the same bit. -/
theorem unpackerReadsCompose : Obligations.UnpackerReadsCompose := by
  intro s n m k hk hrem
  have hboth : n.toNat + m.toNat ≤ s.up.rem := hk ▸ hrem
  refine ⟨_, _, _, length_slice (by omega), length_slice (le_rem_of_add_le_rem hboth),
    execOuts_uppk_uprb_uprb hboth, ?_⟩
  rw [exec_uprb_of_le_rem hrem, hk, slice_add, Nat.add_assoc]

/-- Settles O32: UPLD puts the packed bits at the cursor, and UPRB reads exactly those. -/
theorem packedBitsAreReadBack : Obligations.PackedBitsAreReadBack := by
  intro s n hn
  have hrem : n.toNat ≤ (Unpacker.load (pack s.pkBits)).rem := by
    simp only [Unpacker.rem, Unpacker.load, length_unpack, length_pack]
    omega
  rw [execAll_cons (exec_pkfin s), execAll_cons (exec_upld _), execAll_singleton, exec_uprb_of_le_rem hrem]
  exact ⟨_, rfl, by rw [← hn, slice_load_pack]⟩

end Sys2Proof.Proofs
end

section
/-! PROOFS. What TBLD leaves: the leaves in first-occurrence order, the merges of the two lightest, the root's weight
(42_tree_builder.md R151 to R161). -/

namespace Sys2Proof.Proofs

open Sys2Proof.Machine Sys2Proof.Spec

/-! ## The frequency count names each symbol of the text once, where it first occurs (R152) -/

theorem mem_frequencies_iff {t : List Symbol} {y : Symbol} : y ∈ (frequencies t).map Prod.fst ↔ y ∈ t := by
  induction t using List.reverseRecOn with
  | nil => rfl
  | append_singleton t x ih =>
    rw [frequencies_append, map_fst_countSymbol]
    split
    · rename_i hx
      rw [List.mem_append, ih, List.mem_singleton, or_iff_left_of_imp]
      exact fun hyx => ih.mp (hyx ▸ hx)
    · rw [List.mem_append, List.mem_append, ih]

theorem pairwise_idxOf_frequencies (t : List Symbol) :
    ((frequencies t).map Prod.fst).Pairwise fun a b => t.idxOf a < t.idxOf b := by
  induction t using List.reverseRecOn with
  | nil => exact List.Pairwise.nil
  | append_singleton t x ih =>
    have hold : ((frequencies t).map Prod.fst).Pairwise fun a b => (t ++ [x]).idxOf a < (t ++ [x]).idxOf b :=
      ih.imp_of_mem fun ha hb hab => by
        rwa [List.idxOf_append_of_mem (mem_frequencies_iff.mp ha), List.idxOf_append_of_mem (mem_frequencies_iff.mp hb)]
    rw [frequencies_append, map_fst_countSymbol]
    split
    · exact hold
    · rename_i hx
      have hnew : x ∉ t := fun h => hx (mem_frequencies_iff.mpr h)
      refine List.pairwise_append.mpr ⟨hold, List.pairwise_singleton _ _, fun a ha b hb => ?_⟩
      have hat : a ∈ t := mem_frequencies_iff.mp ha
      rw [List.mem_singleton.mp hb, List.idxOf_append_of_mem hat, List.idxOf_append_of_notMem hnew]
      exact Nat.lt_add_right _ (List.idxOf_lt_length_of_mem hat)

/-- One more occurrence of `x` after the text `t` turns its counts into those of `t` and `x`. -/
theorem countSymbol_counts {t : List Symbol} {x : Symbol} {fq : List (Symbol × Nat)} (hd : (fq.map Prod.fst).Nodup)
    (hfq : ∀ p ∈ fq, p.2 = t.count p.1) (hx : x ∉ fq.map Prod.fst → x ∉ t) :
    ∀ p ∈ countSymbol x fq, p.2 = (t ++ [x]).count p.1 := by
  induction fq with
  | nil => simpa [countSymbol, List.count_eq_zero] using hx
  | cons q fq ih =>
    obtain ⟨y, c⟩ := q
    obtain ⟨hy, hd⟩ := List.nodup_cons.mp hd
    obtain ⟨hc, hfq⟩ := List.forall_mem_cons.mp hfq
    by_cases hyx : y = x
    · subst hyx
      rw [countSymbol, if_pos rfl]
      refine List.forall_mem_cons.mpr ⟨by simpa using hc, fun p hp => ?_⟩
      have hne : p.1 ≠ y := fun h => hy (List.mem_map.mpr ⟨p, hp, h⟩)
      simpa [List.count_singleton, hne.symm] using hfq p hp
    · rw [countSymbol, if_neg hyx]
      refine List.forall_mem_cons.mpr ⟨by simpa [List.count_singleton, Ne.symm hyx] using hc, ih hd hfq fun h => hx ?_⟩
      simpa [Ne.symm hyx] using h

theorem count_of_mem_frequencies {t : List Symbol} : ∀ p ∈ frequencies t, p.2 = t.count p.1 := by
  induction t using List.reverseRecOn with
  | nil => exact nofun
  | append_singleton t x ih =>
    rw [frequencies_append]
    exact countSymbol_counts (nodup_frequencies t) ih fun h ht => h (mem_frequencies_iff.mpr ht)

theorem length_frequencies (t : List Symbol) : (frequencies t).length = t.dedup.length := by
  have hperm : ((frequencies t).map Prod.fst).Perm t.dedup :=
    (List.perm_ext_iff_of_nodup (nodup_frequencies t) t.nodup_dedup).mpr fun y => by
      rw [mem_frequencies_iff, List.mem_dedup]
  simpa using hperm.length_eq

theorem frequencies_replicate (n : Nat) (x : Symbol) : frequencies (List.replicate (n + 1) x) = [(x, n + 1)] := by
  induction n with
  | zero => rfl
  | succ n ih => rw [List.replicate_succ', frequencies_append, ih, countSymbol, if_pos rfl]

/-! ## Selection takes the least entry (R155) -/

theorem before_iff {a b : Entry} : a.before b = true ↔ a.weight < b.weight ∨ (a.weight = b.weight ∧ a.id < b.id) := by
  simp [Entry.before]

theorem takeMin_least {wc rest : List Entry} {m : Entry} (h : takeMin wc = some (m, rest)) :
    ∀ e ∈ rest, ¬ e.before m = true := by
  induction wc generalizing m rest with
  | nil => cases h
  | cons e es ih =>
    rw [takeMin] at h
    split at h
    · cases h
      exact nofun
    · rename_i m' r' hes
      split at h
      · rename_i hbefore
        cases h
        intro f hf
        rcases List.mem_cons.mp ((takeMin_perm hes).subset hf) with rfl | hf'
        · simp only [before_iff] at hbefore ⊢
          omega
        · have hleast := ih hes f hf'
          simp only [before_iff] at hbefore hleast ⊢
          omega
      · rename_i hbefore
        cases h
        exact List.forall_mem_cons.mpr ⟨hbefore, ih hes⟩

/-! ## Every merge (R155, R156) -/

/-- A property of nodes and collection that each merge keeps holds after the merges if it holds before them. -/
theorem mergeLoop_induction {P : List Node → List Entry → Prop}
    (merge : ∀ {nm wc a wc₁ b wc₂}, takeMin wc = some (a, wc₁) → takeMin wc₁ = some (b, wc₂) → P nm wc →
      P (nm ++ [.internal a.id b.id (a.weight + b.weight)]) (⟨a.weight + b.weight, nm.length⟩ :: wc₂))
    (fuel : Nat) {nm : List Node} {wc : List Entry} (h : P nm wc) :
    P (mergeLoop fuel nm wc).1 (mergeLoop fuel nm wc).2 := by
  induction fuel generalizing nm wc with
  | zero => exact h
  | succ fuel ih =>
    unfold mergeLoop
    split
    · exact h
    · rename_i a wc₁ ha
      split
      · exact h
      · rename_i b wc₂ hb
        exact ih (merge ha hb h)

/-- The cells `nm` are `leaves` and behind them internal cells only (R153). -/
def ExtendsByInternals (leaves nm : List Node) : Prop :=
  ∃ merged, nm = leaves ++ merged ∧ ∀ nd ∈ merged, ∃ l r w, nd = .internal l r w

theorem buildTree_extendsByInternals (t : List Symbol) :
    ExtendsByInternals (leavesOf (frequencies t)) (buildTree t).1 := by
  refine mergeLoop_induction (P := fun nm _ => ExtendsByInternals (leavesOf (frequencies t)) nm)
    ?_ _ ⟨[], (List.append_nil _).symm, nofun⟩
  rintro nm wc a wc₁ b wc₂ - - ⟨merged, rfl, hmerged⟩
  refine ⟨merged ++ [.internal a.id b.id (a.weight + b.weight)], List.append_assoc .., fun nd hnd => ?_⟩
  rcases List.mem_append.mp hnd with hold | hnew
  · exact hmerged nd hold
  · exact ⟨_, _, _, List.mem_singleton.mp hnew⟩

/-- No cell below `x` has the node `c` as a child: `c` is not yet merged when cell `x` is made. -/
def Unmerged (nm : List Node) (x c : Nat) : Prop :=
  ∀ (y : Nat) (nd : Node), y < x → nm[y]? = some nd → c ∉ nd.children

/-- What R155 and R156 say of the merge that makes cell `x` from the nodes `a` and `b`. -/
structure LightestMerge (nm : List Node) (x a b w : Nat) : Prop where
  left_lt : a < x
  right_lt : b < x
  left_unmerged : Unmerged nm x a
  right_unmerged : Unmerged nm x b
  weight : w = weightAt nm a + weightAt nm b
  ordered : Lighter nm a b
  least : ∀ c, c < x → c ≠ a → c ≠ b → Unmerged nm x c → Lighter nm b c

/-- Every internal cell was made from the two lightest nodes. -/
def MergesLightest (nm : List Node) : Prop :=
  ∀ ⦃x a b w : Nat⦄, nm[x]? = some (.internal a b w) → LightestMerge nm x a b w

theorem unmerged_append {nm : List Node} {x c : Nat} (hx : x ≤ nm.length) (nd : Node) :
    Unmerged (nm ++ [nd]) x c ↔ Unmerged nm x c := by
  refine forall₃_congr fun y nd' hy => ?_
  rw [List.getElem?_append_left (by omega)]

theorem unmerged_length_iff {nm : List Node} {c : Nat} : Unmerged nm nm.length c ↔ c ∉ nm.flatMap Node.children := by
  simp only [List.mem_flatMap, not_exists, not_and]
  constructor
  · intro h nd hnd
    obtain ⟨y, hy⟩ := List.mem_iff_getElem?.mp hnd
    exact h y nd (List.getElem?_eq_some_iff.mp hy).1 hy
  · exact fun h y nd _ hy => h nd (List.mem_of_getElem? hy)

theorem lighter_append {nm : List Node} {a b : Nat} (ha : a < nm.length) (hb : b < nm.length) (nd : Node) :
    Lighter (nm ++ [nd]) a b ↔ Lighter nm a b := by
  simp only [Lighter, weightAt_append ha, weightAt_append hb]

/-- Later cells change nothing of what is said of a merge. -/
theorem LightestMerge.append {nm : List Node} {x a b w : Nat} (h : LightestMerge nm x a b w) (hx : x ≤ nm.length)
    (nd : Node) : LightestMerge (nm ++ [nd]) x a b w := by
  have ha : a < nm.length := h.left_lt.trans_le hx
  have hb : b < nm.length := h.right_lt.trans_le hx
  exact {
    left_lt := h.left_lt
    right_lt := h.right_lt
    left_unmerged := (unmerged_append hx nd).mpr h.left_unmerged
    right_unmerged := (unmerged_append hx nd).mpr h.right_unmerged
    weight := by rw [weightAt_append ha, weightAt_append hb]; exact h.weight
    ordered := (lighter_append ha hb nd).mpr h.ordered
    least := fun c hc hca hcb hfree =>
      (lighter_append hb (hc.trans_le hx) nd).mpr (h.least c hc hca hcb ((unmerged_append hx nd).mp hfree)) }

section Collection

variable {k total : Nat} {nm : List Node} {wc : List Entry}

theorem Forest.mem_ids_iff (h : Forest k total nm wc) {c : Nat} :
    c ∈ wc.map Entry.id ↔ c < nm.length ∧ Unmerged nm nm.length c := by
  have hnodup := h.parents.nodup_iff.mpr List.nodup_range
  have hmem : c ∈ nm.flatMap Node.children ∨ c ∈ wc.map Entry.id ↔ c < nm.length := by
    rw [← List.mem_append, h.parents.mem_iff, List.mem_range]
  have hdisjoint := List.disjoint_of_nodup_append hnodup (a := c)
  rw [unmerged_length_iff]
  tauto

theorem Forest.nodup_ids (h : Forest k total nm wc) : (wc.map Entry.id).Nodup :=
  (List.nodup_append.mp (h.parents.nodup_iff.mpr List.nodup_range)).2.1

/-- Of two entries with different ids, the one not selected is the greater node. -/
theorem Forest.lighter_of_not_before (h : Forest k total nm wc) {a b : Entry} (ha : a ∈ wc) (hb : b ∈ wc)
    (hid : a.id ≠ b.id) (hbefore : ¬ b.before a = true) : Lighter nm a.id b.id := by
  rw [before_iff, h.entries a ha, h.entries b hb] at hbefore
  unfold Lighter
  omega

/-- The cell a merge adds is made from the two lightest nodes. -/
theorem Forest.lightestMerge (h : Forest k total nm wc) {a b : Entry} {wc₁ wc₂ : List Entry}
    (ha : takeMin wc = some (a, wc₁)) (hb : takeMin wc₁ = some (b, wc₂)) :
    LightestMerge nm nm.length a.id b.id (a.weight + b.weight) := by
  have hperm : wc.Perm (a :: b :: wc₂) := (takeMin_perm ha).trans ((takeMin_perm hb).cons a)
  have hmem_a : a ∈ wc := hperm.symm.subset (by simp)
  have hmem_b : b ∈ wc := hperm.symm.subset (by simp)
  obtain ⟨ha_lt, ha_free⟩ := h.mem_ids_iff.mp (List.mem_map_of_mem hmem_a)
  obtain ⟨hb_lt, hb_free⟩ := h.mem_ids_iff.mp (List.mem_map_of_mem hmem_b)
  have hne : a.id ≠ b.id := fun hid =>
    (List.nodup_cons.mp ((hperm.map Entry.id).nodup_iff.mp h.nodup_ids)).1 (by simp [hid])
  exact {
    left_lt := ha_lt
    right_lt := hb_lt
    left_unmerged := ha_free
    right_unmerged := hb_free
    weight := by rw [h.entries a hmem_a, h.entries b hmem_b]
    ordered := h.lighter_of_not_before hmem_a hmem_b hne (takeMin_least ha b ((takeMin_perm hb).symm.subset (by simp)))
    least := fun c hc hca hcb hfree => by
      obtain ⟨e, he, rfl⟩ := List.mem_map.mp (h.mem_ids_iff.mpr ⟨hc, hfree⟩)
      have hrest : e ∈ wc₂ := List.mem_of_ne_of_mem (mt (congrArg Entry.id) hcb)
        (List.mem_of_ne_of_mem (mt (congrArg Entry.id) hca) (hperm.subset he))
      exact h.lighter_of_not_before hmem_b he hcb.symm (takeMin_least hb e hrest) }

end Collection

theorem MergesLightest.merge {nm : List Node} {a b w : Nat} (h : MergesLightest nm)
    (hnew : LightestMerge nm nm.length a b w) : MergesLightest (nm ++ [.internal a b w]) := by
  intro x a' b' w' hx
  rcases Nat.lt_or_ge x nm.length with hlt | hge
  · rw [List.getElem?_append_left hlt] at hx
    exact (h hx).append hlt.le _
  · obtain rfl : x = nm.length := by have := (List.getElem?_eq_some_iff.mp hx).1; simp at this; omega
    simp at hx
    obtain ⟨rfl, rfl, rfl⟩ := hx
    exact hnew.append le_rfl _

theorem mergesLightest_leaves (fq : List (Symbol × Nat)) : MergesLightest (leavesOf fq) := by
  intro x a b w hx
  obtain ⟨p, -, hp⟩ := List.mem_map.mp (List.mem_of_getElem? hx)
  cases hp

theorem buildTree_mergesLightest (t : List Symbol) : MergesLightest (buildTree t).1 := by
  have hstart := forest_leaves (nodup_frequencies t)
  refine (mergeLoop_induction
    (P := fun nm wc => Forest (frequencies t).length ((frequencies t).map Prod.snd).sum nm wc ∧ MergesLightest nm)
    ?_ _ ⟨hstart, mergesLightest_leaves _⟩).2
  rintro nm wc a wc₁ b wc₂ ha hb ⟨hforest, hmerges⟩
  exact ⟨(hforest.of_perm ((takeMin_perm ha).trans ((takeMin_perm hb).cons a))).merge,
    hmerges.merge (hforest.lightestMerge ha hb)⟩

/-! ## The finished tree (R157, R161) -/

/-- A text that is not empty ends with one entry, the root, in a forest of the text's weight. -/
theorem buildTree_forest {t : List Symbol} (hne : t ≠ []) : ∃ e, (buildTree t).2 = some e.id ∧
    Forest (frequencies t).length t.length (buildTree t).1 [e] := by
  have hpos : 1 ≤ (frequencies t).length := List.length_pos_iff.mpr (frequencies_ne_nil hne)
  obtain ⟨nm, e, hloop, hforest⟩ := mergeLoop_forest (fuel := (frequencies t).length - 1)
    (forest_leaves (nodup_frequencies t)) (by simp [entriesOf]; omega)
  rw [buildTree, hloop, ← sum_frequencies t]
  exact ⟨e, rfl, hforest⟩

/-- Symbols have 16 bits, so NM.count fits the result word for every text. -/
theorem length_buildTree_lt (t : List Symbol) : (buildTree t).1.length < 2 ^ 32 := by
  by_cases hne : t = []
  · rw [hne, buildTree_nil]
    exact Nat.two_pow_pos 32
  · obtain ⟨e, -, hforest⟩ := buildTree_forest hne
    have hsymbols := length_le_of_nodup_symbols (nodup_frequencies t)
    have hcount := hforest.count
    simp [rowsMax] at hsymbols hcount
    omega

theorem weightAt_root {t : List Symbol} (hne : t ≠ []) (hlen : t.length < 2 ^ 32) :
    weightAt (buildTree t).1 ((buildTree t).1.length - 1) = t.length := by
  obtain ⟨e, hroot, hforest⟩ := buildTree_forest hne
  have htree := buildTree_treeOf hne hlen
  have hid : e.id = (buildTree t).1.length - 1 := by
    have htop := hroot.symm.trans htree.top
    have hcount := htree.count
    simp at htop
    omega
  have hsum := hforest.sum
  rw [← hid, ← hforest.entries e (by simp)]
  simpa using hsum

/-- TBLD writes the text's tree and answers NM.count in every state (R151). -/
theorem exec_tbld (s : State) : exec .tbld s =
    .next { s with nm := (buildTree s.txt).1, root := (buildTree s.txt).2,
                   out := okOut [BitVec.ofNat 32 (buildTree s.txt).1.length] } := by
  rw [← countWord_of_lt 0x30 (length_buildTree_lt s.txt)]
  rfl

/-! ## The statements -/

/-- Settles O36: the empty text counts no symbol. -/
theorem tbldOfTheEmptyTextBuildsNoTree : Obligations.TbldOfTheEmptyTextBuildsNoTree := by
  intro s htxt
  rw [exec_tbld, htxt, buildTree_nil]
  rfl

/-- Settles O37: one symbol is counted, so no merge is made. -/
theorem tbldOfOneSymbolBuildsABareLeaf : Obligations.TbldOfOneSymbolBuildsABareLeaf := by
  intro s x n htxt
  have htree : buildTree s.txt = ([.leaf x (n + 1)], some 0) := by
    rw [buildTree, htxt, frequencies_replicate]
    rfl
  rw [exec_tbld, htree]
  rfl

/-- Settles O33: the leaves are the counts in order, and the merges add internal cells behind them. -/
theorem tbldSeedsLeavesInFirstOccurrenceOrder : Obligations.TbldSeedsLeavesInFirstOccurrenceOrder := by
  intro s
  obtain ⟨merged, hnodes, hinternal⟩ := buildTree_extendsByInternals s.txt
  refine ⟨_, (frequencies s.txt).map Prod.fst, exec_tbld s, nodup_frequencies s.txt, fun _ => mem_frequencies_iff,
    pairwise_idxOf_frequencies s.txt, fun j x hx => ?_, fun j nd hj hnd => hinternal nd ?_⟩
  · rw [List.getElem?_map, Option.map_eq_some_iff] at hx
    obtain ⟨p, hp, rfl⟩ := hx
    have hleaf : (leavesOf (frequencies s.txt))[j]? = some (.leaf p.1 (s.txt.count p.1)) := by
      simp [leavesOf, hp, count_of_mem_frequencies p (List.mem_of_getElem? hp)]
    change (buildTree s.txt).1[j]? = _
    rw [hnodes, List.getElem?_append_left (List.getElem?_eq_some_iff.mp hleaf).1, hleaf]
  · change (buildTree s.txt).1[j]? = _ at hnd
    rw [hnodes, List.getElem?_append_right (by simpa [leavesOf] using hj)] at hnd
    exact List.mem_of_getElem? hnd

/-- Settles O34: each cell's merge took the two lightest nodes when it was made, and later cells do not touch it. -/
theorem tbldMergesTheTwoLightest : Obligations.TbldMergesTheTwoLightest := by
  intro s t ht x a b w hx
  rw [exec_tbld] at ht
  cases ht
  have h := buildTree_mergesLightest s.txt hx
  exact ⟨h.left_lt, h.right_lt, fun y nd hy hnd => ⟨h.left_unmerged y nd hy hnd, h.right_unmerged y nd hy hnd⟩,
    h.weight, h.ordered, h.least⟩

/-- Settles O35: the merges end in a legal tree, with as many leaves as symbols counted and the counts' sum at the root. -/
theorem tbldBuildsATreeOfTheText : Obligations.TbldBuildsATreeOfTheText := by
  intro s hlen hne
  exact ⟨_, _, exec_tbld s, length_frequencies s.txt ▸ buildTree_treeOf hne hlen, weightAt_root hne hlen⟩

end Sys2Proof.Proofs
end

section
/-! PROOFS. CTBLD: the rows of a tree are its leaves with the paths to them, and the codes of a text's table are
complete and none begins another (43_code_table.md R170 to R174). -/

namespace Sys2Proof.Proofs

open Sys2Proof.Machine Sys2Proof.Spec

/-! ## Following a path, one equation per kind of cell (R170) -/

section Follow

variable {nm : List Node} {x : Nat}

theorem follow_cons_internal {l r w : Nat} (hx : nm[x]? = some (.internal l r w)) (b : Bool) (q : Bits) :
    follow nm x (b :: q) = follow nm (if b then r else l) q := by
  simp [follow, hx]

theorem follow_to_leaf_of_leaf {sym sym' : Symbol} {w : Nat} {q : Bits} (hx : nm[x]? = some (.leaf sym w)) :
    (∃ v, follow nm x q = some (.leaf sym' v)) ↔ q = [] ∧ sym' = sym := by
  cases q <;> simp [follow, hx, eq_comm]

theorem follow_to_leaf_of_internal {l r w : Nat} {sym : Symbol} {q : Bits} (hx : nm[x]? = some (.internal l r w)) :
    (∃ v, follow nm x q = some (.leaf sym v)) ↔
      (∃ q', q = false :: q' ∧ ∃ v, follow nm l q' = some (.leaf sym v)) ∨
      (∃ q', q = true :: q' ∧ ∃ v, follow nm r q' = some (.leaf sym v)) := by
  rcases q with _ | ⟨_ | _, q⟩ <;> simp [follow, hx]

end Follow

/-! ## The rows of a walk (R171) -/

/-- Code `c` is to the left of code `d`: the first bit in which they differ is 0 in `c`. -/
def LeftOf (c d : Bits) : Prop :=
  ∃ p c' d', c = p ++ false :: c' ∧ d = p ++ true :: d'

theorem LeftOf.lex {c d : Bits} : LeftOf c d → List.Lex (fun x y => x = false ∧ y = true) c d := by
  rintro ⟨p, c', d', rfl, rfl⟩
  exact List.Lex.append_left _ (.rel ⟨rfl, rfl⟩) p

theorem LeftOf.not_prefix {c d : Bits} : LeftOf c d → ¬ c <+: d ∧ ¬ d <+: c := by
  rintro ⟨p, c', d', rfl, rfl⟩
  simp [List.prefix_append_right_inj, List.cons_prefix_cons]

section Walk

variable {nm : List Node} {fuel x : Nat} {path : Bits} {rows : List Row}

/-- The rows are the leaves below `x`, each with the path to it behind the path to `x`. -/
theorem mem_walk_iff (h : walk nm fuel x path = .ok rows) (row : Row) :
    row ∈ rows ↔ ∃ q, row.code = path ++ q ∧ ∃ w, follow nm x q = some (.leaf row.sym w) := by
  induction fuel generalizing x path rows with
  | zero => cases h
  | succ n ih =>
    obtain ⟨m, hm, ⟨sym, w, hx, rfl⟩ | ⟨l, r, w, a, b, hx, ha, hb, rfl⟩⟩ := walk_cases h
    · obtain ⟨s, c⟩ := row
      simp only [follow_to_leaf_of_leaf hx, List.mem_singleton, Row.mk.injEq]
      constructor
      · rintro ⟨rfl, rfl⟩
        exact ⟨[], by simp, rfl, rfl⟩
      · rintro ⟨q, hc, rfl, rfl⟩
        exact ⟨rfl, by simpa using hc⟩
    · cases hm
      simp only [List.mem_append, ih ha, ih hb, follow_to_leaf_of_internal hx, List.append_assoc, List.singleton_append]
      constructor
      · rintro (⟨q, hc, hq⟩ | ⟨q, hc, hq⟩)
        · exact ⟨false :: q, hc, .inl ⟨q, rfl, hq⟩⟩
        · exact ⟨true :: q, hc, .inr ⟨q, rfl, hq⟩⟩
      · rintro ⟨_, hc, ⟨q, rfl, hq⟩ | ⟨q, rfl, hq⟩⟩
        · exact .inl ⟨q, hc, hq⟩
        · exact .inr ⟨q, hc, hq⟩

theorem prefix_of_mem_walk (h : walk nm fuel x path = .ok rows) {row : Row} (hrow : row ∈ rows) : path <+: row.code := by
  obtain ⟨q, hcode, -⟩ := (mem_walk_iff h row).mp hrow
  exact ⟨q, hcode.symm⟩

/-- The left subtree's rows come first, and all their codes are to the left of the right subtree's. -/
theorem walk_pairwise_leftOf (h : walk nm fuel x path = .ok rows) :
    rows.Pairwise fun a b => LeftOf a.code b.code := by
  induction fuel generalizing x path rows with
  | zero => cases h
  | succ n ih =>
    obtain ⟨m, hm, ⟨sym, w, -, rfl⟩ | ⟨l, r, w, a, b, -, ha, hb, rfl⟩⟩ := walk_cases h
    · exact List.pairwise_singleton _ _
    · cases hm
      refine List.pairwise_append.mpr ⟨ih ha, ih hb, fun p hp q hq => ?_⟩
      obtain ⟨c, hc⟩ := prefix_of_mem_walk ha hp
      obtain ⟨d, hd⟩ := prefix_of_mem_walk hb hq
      exact ⟨path, c, d, by simp [← hc], by simp [← hd]⟩

/-- With two rows or more the walk started at an internal cell, so every code goes on behind the path. -/
theorem walk_code_longer (h : walk nm fuel x path = .ok rows) (htwo : 2 ≤ rows.length) {row : Row} (hrow : row ∈ rows) :
    path.length + 1 ≤ row.code.length := by
  obtain ⟨n, -, ⟨sym, w, -, rfl⟩ | ⟨l, r, w, a, b, -, ha, hb, rfl⟩⟩ := walk_cases h
  · simp at htwo
  · rcases List.mem_append.mp hrow with hleft | hright
    · simpa using (prefix_of_mem_walk ha hleft).length_le
    · simpa using (prefix_of_mem_walk hb hright).length_le

/-- Bits that are long enough lead from `x` to a leaf: each bit chooses a subtree. -/
theorem walk_complete (h : walk nm fuel x path = .ok rows) {bits : Bits}
    (hlong : ∀ row ∈ rows, row.code.length ≤ (path ++ bits).length) : ∃ row ∈ rows, row.code <+: path ++ bits := by
  induction fuel generalizing x path rows bits with
  | zero => cases h
  | succ n ih =>
    obtain ⟨m, hm, ⟨sym, w, -, rfl⟩ | ⟨l, r, w, a, b, -, ha, hb, rfl⟩⟩ := walk_cases h
    · exact ⟨_, List.mem_singleton_self _, List.prefix_append path bits⟩
    · cases hm
      obtain ⟨hla, hlb⟩ := List.forall_mem_append.mp hlong
      rcases bits with _ | ⟨_ | _, bits⟩
      · obtain ⟨row, hrow⟩ := List.exists_mem_of_length_pos (walk_code_length ha).1
        have := (prefix_of_mem_walk ha hrow).length_le.trans (hla row hrow)
        simp at this
      · obtain ⟨row, hrow, hcode⟩ := ih ha (bits := bits) (by simpa using hla)
        exact ⟨row, List.mem_append_left _ hrow, by simpa using hcode⟩
      · obtain ⟨row, hrow, hcode⟩ := ih hb (bits := bits) (by simpa using hlb)
        exact ⟨row, List.mem_append_right _ hrow, by simpa using hcode⟩

end Walk

/-! ## Trees in which every cell hangs below the root (R28) -/

/-- What the walk needs of a tree: children have smaller ids, and every cell but the root has a parent. No weight is bounded,
so it also holds of the trees of texts of 2^32 symbols or more (log 9). -/
structure Rooted (nm : List Node) (root : Nat) : Prop where
  root_lt : root < nm.length
  children_lt : ∀ {x l r w : Nat}, nm[x]? = some (.internal l r w) → l < x ∧ r < x
  parent : ∀ {x : Nat}, x < nm.length → x ≠ root → x ∈ nm.flatMap Node.children

theorem rooted_of_treeOf {k : Nat} {nm : List Node} {root : Option Nat} (h : TreeOf k nm root) :
    Rooted nm (2 * k - 2) where
  root_lt := by have := h.nonempty; have := h.count; omega
  children_lt := children_lt h
  parent hx hne := h.parents.symm.subset (List.mem_range.mpr (by have := h.count; omega))

theorem Forest.rooted {k total : Nat} {nm : List Node} {e : Entry} (h : Forest k total nm [e]) : Rooted nm e.id where
  root_lt := h.id_lt (List.mem_singleton_self e)
  children_lt {x l r w} hx := by
    have hlt := (List.getElem?_eq_some_iff.mp hx).1
    rcases Nat.lt_or_ge x k with hleaf | hint
    · obtain ⟨sym, v, hc⟩ := h.leaves x hleaf
      rw [hc] at hx
      cases hx
    · obtain ⟨l', r', hc, hl, hr⟩ := h.internals x hint hlt
      rw [hc] at hx
      cases hx
      exact ⟨hl, hr⟩
  parent hx hne := by simpa [hne] using h.parents.symm.subset (List.mem_range.mpr hx)

namespace Rooted

variable {nm : List Node} {root : Nat}

theorem walk_answers (h : Rooted nm root) {fuel x : Nat} (hx : x < nm.length) (hfuel : x < fuel) (path : Bits) :
    ∃ rows, walk nm fuel x path = .ok rows := by
  induction fuel generalizing x path with
  | zero => omega
  | succ n ih =>
    cases hc : nm[x] with
    | leaf sym w => exact ⟨_, walk_leaf (List.getElem?_eq_some_iff.mpr ⟨hx, hc⟩) n path⟩
    | internal l r w =>
      have hcell := List.getElem?_eq_some_iff.mpr ⟨hx, hc⟩
      obtain ⟨hl, hr⟩ := h.children_lt hcell
      obtain ⟨a, ha⟩ := ih (x := l) (by omega) (by omega) (path ++ [false])
      obtain ⟨b, hb⟩ := ih (x := r) (by omega) (by omega) (path ++ [true])
      exact ⟨_, (walk_internal hcell n path _).mpr ⟨a, b, ha, hb, rfl⟩⟩

theorem buildTable_answers (h : Rooted nm root) : ∃ ct, buildTable nm (some root) = .ok ct :=
  h.walk_answers h.root_lt h.root_lt []

/-- A path from the root to each cell: behind the path to its parent, one more bit. -/
theorem exists_path (h : Rooted nm root) {x : Nat} (hx : x < nm.length) :
    ∃ path, ∀ q, follow nm root (path ++ q) = follow nm x q := by
  by_cases hroot : x = root
  · exact ⟨[], fun q => by rw [hroot, List.nil_append]⟩
  · obtain ⟨nd, hnd, hchild⟩ := List.mem_flatMap.mp (h.parent hx hroot)
    obtain ⟨y, hy⟩ := List.mem_iff_getElem?.mp hnd
    cases nd with
    | leaf sym w => simp [Node.children] at hchild
    | internal l r w =>
      have hlt := (List.getElem?_eq_some_iff.mp hy).1
      have hbelow := h.children_lt hy
      have hxy : x = l ∨ x = r := by simpa [Node.children] using hchild
      obtain ⟨path, hpath⟩ := exists_path h hlt
      rcases hxy with rfl | rfl
      · exact ⟨path ++ [false], fun q => by simpa [hpath] using follow_cons_internal hy false q⟩
      · exact ⟨path ++ [true], fun q => by simpa [hpath] using follow_cons_internal hy true q⟩
  termination_by nm.length - x
  decreasing_by omega

/-- Every leaf's symbol has a row in the table. -/
theorem symbols_subset (h : Rooted nm root) {ct : List Row} (hct : buildTable nm (some root) = .ok ct) :
    nm.filterMap Node.symbol? ⊆ ct.map Row.sym := by
  intro sym hsym
  obtain ⟨nd, hnd, hndsym⟩ := List.mem_filterMap.mp hsym
  cases nd with
  | internal l r w => cases hndsym
  | leaf sym' w =>
    cases hndsym
    obtain ⟨x, hx⟩ := List.mem_iff_getElem?.mp hnd
    obtain ⟨path, hpath⟩ := h.exists_path (List.getElem?_eq_some_iff.mp hx).1
    have hleaf : follow nm root path = some (.leaf sym w) := by simpa [follow, hx] using hpath []
    exact List.mem_map.mpr ⟨⟨sym, path⟩, (mem_walk_iff hct _).mpr ⟨path, rfl, w, hleaf⟩, rfl⟩

end Rooted

/-! ## The table of a text (R173) -/

theorem symbols_buildTree (t : List Symbol) :
    (buildTree t).1.filterMap Node.symbol? = (frequencies t).map Prod.fst := by
  obtain ⟨merged, hnodes, hinternal⟩ := buildTree_extendsByInternals t
  have hmerged : merged.filterMap Node.symbol? = [] := List.filterMap_eq_nil_iff.mpr fun nd hnd => by
    obtain ⟨l, r, w, rfl⟩ := hinternal nd hnd
    rfl
  rw [hnodes, List.filterMap_append, hmerged, List.append_nil, leavesOf, List.filterMap_map]
  exact congrFun List.filterMap_eq_map _

/-- Every text builds a table, and each of its symbols has a row in it. -/
theorem buildTable_buildTree (t : List Symbol) :
    ∃ ct, buildTable (buildTree t).1 (buildTree t).2 = .ok ct ∧ t ⊆ ct.map Row.sym := by
  by_cases hne : t = []
  · subst hne
    exact ⟨[], rfl, List.nil_subset _⟩
  · obtain ⟨e, hroot, hforest⟩ := buildTree_forest hne
    obtain ⟨ct, hct⟩ := hforest.rooted.buildTable_answers
    refine ⟨ct, hroot ▸ hct, fun x hx => hforest.rooted.symbols_subset hct ?_⟩
    rw [symbols_buildTree]
    exact mem_frequencies_iff.mpr hx

/-- The rows of a legal tree have its leaves' symbols, each once. -/
theorem perm_symbols {k : Nat} {nm : List Node} {root : Option Nat} {ct : List Row} (h : TreeOf k nm root)
    (hct : buildTable nm root = .ok ct) : (nm.filterMap Node.symbol?).Perm (ct.map Row.sym) := by
  rw [h.top] at hct
  have hsub := h.distinct.subperm ((rooted_of_treeOf h).symbols_subset hct)
  exact hsub.perm_of_length_le (by rw [List.length_map, walk_root_length h hct])

/-! ## CTBLD, one equation per outcome that a legal tree has -/

theorem exec_ctbld_of_ok {s : State} {ct : List Row} (hct : buildTable s.nm s.root = .ok ct) :
    exec .ctbld s = .next { s with ct := ct, out := okOut [countWord 0x40 ct.length] } := by
  rw [exec, execCtbld, hct]
  rfl

theorem exec_ctbld_of_treeOk {s : State} {ct : List Row} (h : TreeOk s.nm s.root)
    (hct : buildTable s.nm s.root = .ok ct) :
    exec .ctbld s = .next { s with ct := ct, out := okOut [BitVec.ofNat 32 ct.length] } := by
  have hrows := (buildTable_tableOk h hct).1
  rw [exec_ctbld_of_ok hct, countWord_of_lt 0x40 (hrows.trans_lt (by decide))]

/-! ## The statements -/

/-- Settles O38: the walk from the root gives the leaves with their paths, the left subtree's first. -/
theorem ctbldRowsAreTheLeavesAndTheirPaths : Obligations.CtbldRowsAreTheLeavesAndTheirPaths := by
  intro s k root hroot htree
  have htop : root = 2 * k - 2 := Option.some.inj (hroot.symm.trans htree.top)
  obtain ⟨ct, hwalk⟩ := (rooted_of_treeOf htree).buildTable_answers
  rw [← htop] at hwalk
  refine ⟨ct, exec_ctbld_of_treeOk (.inr ⟨k, htree⟩) (hroot ▸ hwalk), fun r => ?_, ?_⟩
  · simpa using mem_walk_iff hwalk r
  · exact List.pairwise_map.mpr ((walk_pairwise_leftOf hwalk).imp LeftOf.lex)

/-- Settles O40: codes that branch apart do not begin each other, and the tree's leaves are the text's symbols. -/
theorem builtTablesArePrefixFreeAndComplete : Obligations.BuiltTablesArePrefixFreeAndComplete := by
  intro s hne hlen
  have htree := buildTree_treeOf hne hlen
  obtain ⟨ct, hct, -⟩ := buildTable_buildTree s.txt
  have hperm := perm_symbols htree hct
  rw [symbols_buildTree] at hperm
  have hwalk := hct
  rw [htree.top] at hwalk
  rw [execAll_cons (exec_tbld s), execAll_singleton, exec_ctbld_of_ok hct]
  refine ⟨_, rfl, ?_, hperm.nodup_iff.mp (nodup_frequencies s.txt), fun r hr => ?_, ?_, fun htwo r hr => ?_,
    fun bits hlong => walk_complete hwalk hlong⟩
  · simpa [length_frequencies] using hperm.length_eq.symm
  · exact mem_frequencies_iff.mp (hperm.symm.subset (List.mem_map_of_mem hr))
  · exact (walk_pairwise_leftOf hwalk).imp LeftOf.not_prefix
  · simpa using walk_code_longer hwalk htwo hr

end Sys2Proof.Proofs
end

section
/-! PROOFS. CTSER and CTDES: the serialised table and reading it back, row for row (43_code_table.md R176 to R183). -/

namespace Sys2Proof.Proofs

open Sys2Proof.Machine Sys2Proof.Spec

/-! ## Bits read at the cursor (41_bit_unpacker.md R130) -/

/-- `Reads u b u'`: the bits at the cursor of `u` begin with `b`, and `u'` is `u` with the cursor behind them. -/
structure Reads (u : Unpacker) (b : Bits) (u' : Unpacker) : Prop where
  ahead : b <+: u.bits.drop u.pos
  moved : u' = ⟨u.bits, u.pos + b.length⟩

theorem reads_nil {u u' : Unpacker} : Reads u [] u' ↔ u' = u :=
  ⟨fun h => h.moved, fun h => ⟨List.nil_prefix, h⟩⟩

theorem reads_append {u u' : Unpacker} {a b : Bits} : Reads u (a ++ b) u' ↔ ∃ v, Reads u a v ∧ Reads v b u' := by
  have hdrop (tail : Bits) (h : a ++ tail = u.bits.drop u.pos) : u.bits.drop (u.pos + a.length) = tail := by
    rw [← List.drop_drop, ← h, List.drop_left]
  constructor
  · rintro ⟨⟨rest, hrest⟩, rfl⟩
    rw [List.append_assoc] at hrest
    exact ⟨_, ⟨⟨b ++ rest, hrest⟩, rfl⟩, ⟨rest, (hdrop _ hrest).symm⟩, by simp [Nat.add_assoc]⟩
  · rintro ⟨v, ⟨⟨tail, htail⟩, rfl⟩, ⟨rest, hrest⟩, rfl⟩
    rw [hdrop tail htail] at hrest
    exact ⟨⟨rest, by rw [List.append_assoc, hrest, htail]⟩, by simp [Nat.add_assoc]⟩

theorem read_eq_ok_iff {u u' : Unpacker} {n : Nat} {b : Bits} :
    u.read n = .ok (b, u') ↔ b.length = n ∧ Reads u b u' := by
  rcases Nat.lt_or_ge u.rem n with hshort | hfit
  · simp only [read_underflow hshort, reduceCtorEq, false_iff]
    rintro ⟨rfl, hahead, -⟩
    have := hahead.length_le
    simp [Unpacker.rem] at this hshort
    omega
  · simp only [read_ok hfit, Except.ok.injEq, Prod.mk.injEq]
    constructor
    · rintro ⟨rfl, rfl⟩
      exact ⟨length_slice hfit, List.take_prefix _ _, by rw [length_slice hfit]⟩
    · rintro ⟨rfl, hahead, rfl⟩
      exact ⟨(List.prefix_iff_eq_take.mp hahead).symm, rfl⟩

/-- A field of `w` bits is its number: every bit sequence of length `w` is the field of exactly one number (R12). -/
theorem val_eq_iff_eq_field {b : Bits} {v w : Nat} (hb : b.length = w) : val b = v ↔ v < 2 ^ w ∧ b = field v w := by
  subst hb
  rw [field_eq_lsbf]
  constructor
  · rintro rfl
    exact ⟨val_lt b, (lsbf_val b).symm⟩
  · rintro ⟨hv, hb⟩
    rw [hb, val_lsbf_of_lt hv]

theorem readFixed_eq_ok_iff {u u' : Unpacker} {w v : Nat} :
    u.readFixed w = .ok (v, u') ↔ v < 2 ^ w ∧ Reads u (field v w) u' := by
  have hread : u.readFixed w = .ok (v, u') ↔ ∃ b, u.read w = .ok (b, u') ∧ val b = v := by
    simp [Unpacker.readFixed, bind_eq_ok, pure, Except.pure]
  rw [hread]
  simp only [read_eq_ok_iff]
  constructor
  · rintro ⟨b, ⟨hlen, hb⟩, hval⟩
    obtain ⟨hv, rfl⟩ := (val_eq_iff_eq_field hlen).mp hval
    exact ⟨hv, hb⟩
  · rintro ⟨hv, hb⟩
    exact ⟨_, ⟨length_field v w, hb⟩, (val_eq_iff_eq_field (length_field v w)).mpr ⟨hv, rfl⟩⟩

/-! ## The table at the cursor (R181) -/

theorem readRows_succ_eq_ok_iff {count : Nat} {u u' : Unpacker} {rows : List Row} :
    readRows (count + 1) u = .ok (rows, u') ↔
      ∃ r more v, rows = r :: more ∧ r.code.length ≤ lenMax ∧ Reads u (rowBits r) v ∧ readRows count v = .ok (more, u') := by
  have hread : readRows (count + 1) u = .ok (rows, u') ↔
      ∃ sym u₁, (sym < 2 ^ 16 ∧ Reads u (field sym 16) u₁) ∧ ∃ len u₂, (len < 2 ^ 16 ∧ Reads u₁ (field len 16) u₂) ∧
        ∃ code v, (code.length = len ∧ Reads u₂ code v) ∧ ∃ more w, readRows count v = .ok (more, w) ∧
          ⟨BitVec.ofNat 16 sym, code⟩ :: more = rows ∧ w = u' := by
    simp only [readRows, bind_eq_ok, Prod.exists, readFixed_eq_ok_iff, read_eq_ok_iff, pure, Except.pure,
      Except.ok.injEq, Prod.mk.injEq]
  simp only [hread, rowBits, reads_append]
  constructor
  · rintro ⟨sym, u₁, ⟨hsym, hu₁⟩, len, u₂, ⟨hlen, hu₂⟩, code, v, ⟨rfl, hv⟩, more, _, hmore, rfl, rfl⟩
    rw [← Nat.mod_eq_of_lt hsym, ← BitVec.toNat_ofNat] at hu₁
    exact ⟨_, more, v, rfl, Nat.le_of_lt_succ hlen, ⟨u₂, ⟨u₁, hu₁, hu₂⟩, hv⟩, hmore⟩
  · rintro ⟨r, more, v, rfl, hcode, ⟨u₂, ⟨u₁, hu₁, hu₂⟩, hv⟩, hmore⟩
    exact ⟨r.sym.toNat, u₁, ⟨r.sym.isLt, hu₁⟩, _, u₂, ⟨Nat.lt_succ_of_le hcode, hu₂⟩, r.code, v, ⟨rfl, hv⟩, more, u',
      hmore, by simp, rfl⟩

theorem readRows_eq_ok_iff {count : Nat} {u u' : Unpacker} {rows : List Row} :
    readRows count u = .ok (rows, u') ↔
      rows.length = count ∧ (∀ r ∈ rows, r.code.length ≤ lenMax) ∧ Reads u (rows.flatMap rowBits) u' := by
  induction count generalizing u rows with
  | zero =>
    cases rows <;> simp [readRows, reads_nil, eq_comm]
  | succ count ih =>
    simp only [readRows_succ_eq_ok_iff, ih]
    constructor
    · rintro ⟨r, more, v, rfl, hcode, hr, rfl, hcodes, hmore⟩
      exact ⟨rfl, List.forall_mem_cons.mpr ⟨hcode, hcodes⟩, reads_append.mpr ⟨v, hr, hmore⟩⟩
    · rintro ⟨hcount, hcodes, hreads⟩
      obtain ⟨r, more, rfl⟩ := List.exists_cons_of_length_eq_add_one hcount
      obtain ⟨hcode, hcodes⟩ := List.forall_mem_cons.mp hcodes
      obtain ⟨v, hr, hmore⟩ := reads_append.mp hreads
      exact ⟨r, more, v, rfl, hcode, hr, by simpa using hcount, hcodes, hmore⟩

/-- CTDES reads a table exactly where the bits at the cursor serialise it. -/
theorem readTable_eq_ok_iff {u u' : Unpacker} {ct : List Row} :
    readTable u = .ok (ct, u') ↔ Serialisable ct ∧ Reads u (tableBits ct) u' := by
  have hread : readTable u = .ok (ct, u') ↔
      ∃ m v, (m < 2 ^ 16 ∧ Reads u (field m 16) v) ∧ readRows (m + 1) v = .ok (ct, u') := by
    simp only [readTable, bind_eq_ok, Prod.exists, readFixed_eq_ok_iff]
  simp only [hread, readRows_eq_ok_iff, tableBits, reads_append, Serialisable, TableOk]
  constructor
  · rintro ⟨m, v, ⟨hm, hfield⟩, hcount, hcodes, hrows⟩
    obtain rfl : m = ct.length - 1 := by omega
    refine ⟨⟨List.ne_nil_of_length_eq_add_one hcount, ?_, hcodes⟩, v, hfield, hrows⟩
    simp only [rowsMax]
    omega
  · rintro ⟨⟨hne, hcount, hcodes⟩, v, hfield, hrows⟩
    have hpos := List.length_pos_iff.mpr hne
    simp only [rowsMax] at hcount
    exact ⟨_, v, ⟨by omega, hfield⟩, by omega, hcodes, hrows⟩

/-! ## A read at the cursor fails by underflow only (R132, R181) -/

/-- The steps end in no other failure than UnderflowError. -/
def OnlyUnderflows {α : Type} (r : Except Stop α) : Prop :=
  ∀ e, r = .error e → e = .raise .underflow

theorem onlyUnderflows_ok {α : Type} (a : α) : OnlyUnderflows (.ok a) := nofun

theorem onlyUnderflows_bind {α β : Type} {x : Except Stop α} {f : α → Except Stop β} (hx : OnlyUnderflows x)
    (hf : ∀ a, OnlyUnderflows (f a)) : OnlyUnderflows (x >>= f) := by
  cases x with
  | error e => exact fun e' h => hx e' (by simpa [bind, Except.bind] using h)
  | ok a => exact hf a

theorem onlyUnderflows_read (u : Unpacker) (n : Nat) : OnlyUnderflows (u.read n) := by
  intro e h
  rcases Nat.lt_or_ge u.rem n with hshort | hfit
  · rw [read_underflow hshort] at h
    exact (Except.error.inj h).symm
  · rw [read_ok hfit] at h
    cases h

theorem onlyUnderflows_readFixed (u : Unpacker) (w : Nat) : OnlyUnderflows (u.readFixed w) :=
  onlyUnderflows_bind (onlyUnderflows_read u w) fun _ => onlyUnderflows_ok _

theorem onlyUnderflows_readRows (count : Nat) (u : Unpacker) : OnlyUnderflows (readRows count u) := by
  induction count generalizing u with
  | zero => exact onlyUnderflows_ok _
  | succ count ih =>
    exact onlyUnderflows_bind (onlyUnderflows_readFixed _ _) fun _ => onlyUnderflows_bind (onlyUnderflows_readFixed _ _)
      fun _ => onlyUnderflows_bind (onlyUnderflows_read _ _) fun _ => onlyUnderflows_bind (ih _) fun _ => onlyUnderflows_ok _

theorem onlyUnderflows_readTable (u : Unpacker) : OnlyUnderflows (readTable u) :=
  onlyUnderflows_bind (onlyUnderflows_readFixed _ _) fun _ => onlyUnderflows_readRows _ _

theorem readTable_underflow {u : Unpacker} (h : ∀ ct, Serialisable ct → ¬ tableBits ct <+: u.bits.drop u.pos) :
    readTable u = .error (.raise .underflow) := by
  cases hread : readTable u with
  | error e => rw [onlyUnderflows_readTable u e hread]
  | ok p =>
    obtain ⟨hct, hreads⟩ := readTable_eq_ok_iff.mp hread
    exact absurd hreads.ahead (h p.1 hct)

/-! ## CTSER and CTDES, one equation per outcome -/

theorem exec_ctser_of_empty {s : State} (hct : s.ct = []) : exec .ctser s = .next (s.refuseCommand .emptyTable) := by
  simp only [exec, execCtser, hct, if_true]
  rfl

theorem exec_ctdes_of_prefix {s : State} {ct : List Row} (hct : Serialisable ct) (hbits : tableBits ct <+: remaining s) :
    exec .ctdes s = .next { s with
      ct := ct, up := ⟨s.up.bits, s.up.pos + (tableBits ct).length⟩, out := okOut [BitVec.ofNat 32 ct.length] } := by
  have hrows : ct.length ≤ rowsMax := hct.2.1
  rw [← countWord_of_lt 0x42 (hrows.trans_lt (by decide)), exec, execCtdes,
    readTable_eq_ok_iff.mpr ⟨hct, hbits, rfl⟩]
  rfl

theorem exec_ctdes_of_underflow {s : State} (h : readTable s.up = .error (.raise .underflow)) :
    exec .ctdes s = .next (s.raiseError .underflow) := by
  rw [exec, execCtdes, h]
  rfl

/-! ## The statements -/

/-- Settles O41: CTSER is PKB of the table's bits. -/
theorem ctserAppendsTheSerialisedTable : Obligations.CtserAppendsTheSerialisedTable := by
  intro s hct hfit
  rw [exec_ctser_eq_exec_pkb hct, exec_pkb_of_fits hfit]

/-- Settles O42: the empty table is refused before the append. -/
theorem ctserOfZeroRowsIsRefused : Obligations.CtserOfZeroRowsIsRefused := by
  intro s hst hct
  rw [exec_ctser_of_empty hct, refuseCommand_of_st_eq_zero hst (by decide)]
  rfl

/-- Settles O43: the bits at the cursor begin with those of the table. -/
theorem ctdesReadsTheSerialisedTable : Obligations.CtdesReadsTheSerialisedTable :=
  fun _ _ rest hct hbits => exec_ctdes_of_prefix hct ⟨rest, hbits.symm⟩

/-- Settles O44: a table that is read lies serialised at the cursor, and a read that fails underflows. -/
theorem ctdesUnderflowsOnACutTable : Obligations.CtdesUnderflowsOnACutTable := by
  intro s hst hcut
  rw [exec_ctdes_of_underflow (readTable_underflow fun ct hct ⟨rest, hrest⟩ => hcut ct rest hct hrest.symm),
    raiseError_of_st_eq_zero hst]
  rfl

/-- Settles O45: loading packed bytes gives the stream back, with the table behind the first bits. -/
theorem ctdesReversesCtser : Obligations.CtdesReversesCtser := by
  intro s hct hfit
  have hstream : tableBits s.ct <+: (unpack (pack (s.pkBits ++ tableBits s.ct))).drop s.pkBits.length := by
    rw [packAndUnpackAreInverse.1, List.append_assoc, List.drop_left]
    exact List.prefix_append _ _
  rw [execAll_cons (ctserAppendsTheSerialisedTable s hct.1 hfit), execAll_cons (exec_pkfin _), execAll_singleton,
    exec_upld]
  exact ⟨_, _, rfl, exec_ctdes_of_prefix hct hstream, rfl⟩

end Sys2Proof.Proofs
end

section
/-! PROOFS. CTCODE and CTSYM: the first row with a symbol, and the first row whose code the remaining bits begin with
(43_code_table.md R174, R186 to R194). -/

namespace Sys2Proof.Proofs

open Sys2Proof.Machine Sys2Proof.Spec

/-! ## Lookups, one equation per outcome (R187, R189) -/

theorem codeFor_of_first {before after : List Row} {x : Symbol} {code : Bits} (hfirst : ∀ q ∈ before, q.sym ≠ x) :
    codeFor (before ++ ⟨x, code⟩ :: after) x = .ok code := by
  have hfind : (before ++ ⟨x, code⟩ :: after).find? (fun r => r.sym == x) = some ⟨x, code⟩ :=
    List.find?_eq_some_iff_append.mpr ⟨by simp, before, after, rfl, by simpa using hfirst⟩
  rw [codeFor, hfind]

theorem codeFor_of_no_row {ct : List Row} {x : Symbol} (hnone : ∀ q ∈ ct, q.sym ≠ x) :
    codeFor ct x = .error (.raise .symbolNotFound) := by
  have hfind : ct.find? (fun r => r.sym == x) = none := List.find?_eq_none.mpr (by simpa using hnone)
  rw [codeFor, hfind]

/-- A symbol that has a row is found, with the code the spec's table gives it. -/
theorem codeFor_of_mem {ct : List Row} {x : Symbol} (hx : x ∈ ct.map Row.sym) : codeFor ct x = .ok (codeOf ct x) := by
  obtain ⟨r, hr, hsym⟩ := List.mem_map.mp hx
  cases hfind : ct.find? (fun r => r.sym == x) with
  | none => exact absurd (beq_iff_eq.mpr hsym) (List.find?_eq_none.mp hfind r hr)
  | some q => simp [codeFor, codeOf, hfind]

theorem symbolFor_of_first {before after : List Row} {r : Row} {u : Unpacker} (hmatch : r.code <+: u.bits.drop u.pos)
    (hfirst : ∀ q ∈ before, ¬ q.code <+: u.bits.drop u.pos) :
    symbolFor (before ++ r :: after) u = .ok (r.sym, ⟨u.bits, u.pos + r.code.length⟩) := by
  have hfind : (before ++ r :: after).find? (Row.matchesAt u) = some r :=
    List.find?_eq_some_iff_append.mpr
      ⟨(matchesAt_iff u r).mpr hmatch, before, after, rfl, by simpa [← matchesAt_iff] using hfirst⟩
  rw [symbolFor, hfind]

theorem symbolFor_of_no_row {ct : List Row} {u : Unpacker} (hnone : ∀ q ∈ ct, ¬ q.code <+: u.bits.drop u.pos) :
    symbolFor ct u = .error (.raise .noMatchingCode) := by
  have hfind : ct.find? (Row.matchesAt u) = none :=
    List.find?_eq_none.mpr fun q hq hmatch => hnone q hq ((matchesAt_iff u q).mp hmatch)
  rw [symbolFor, hfind]

/-! ## CTCODE and CTSYM, one equation per outcome -/

theorem exec_ctcode_of_ok {s : State} {x : Symbol} {code : Bits} (h : codeFor s.ct x = .ok code) :
    exec (.ctcode x) s = .next { s with out := bitsOut code } := by
  rw [exec, execCtcode, h, ← response_okBits]
  rfl

theorem exec_ctcode_of_raise {s : State} {x : Symbol} {k : ErrorKind} (h : codeFor s.ct x = .error (.raise k)) :
    exec (.ctcode x) s = .next (s.raiseError k) := by
  rw [exec, execCtcode, h]
  rfl

theorem exec_ctsym_of_ok {s : State} {x : Symbol} {u : Unpacker} (h : symbolFor s.ct s.up = .ok (x, u)) :
    exec .ctsym s = .next { s with up := u, out := okOut [BitVec.ofNat 32 x.toNat] } := by
  rw [exec, execCtsym, h, BitVec.ofNat_toNat]
  rfl

theorem exec_ctsym_of_raise {s : State} {k : ErrorKind} (h : symbolFor s.ct s.up = .error (.raise k)) :
    exec .ctsym s = .next (s.raiseError k) := by
  rw [exec, execCtsym, h]
  rfl

/-! ## The statements -/

/-- Settles O46: the lookup finds the first row with the symbol. -/
theorem ctcodeReturnsTheFirstRowsCode : Obligations.CtcodeReturnsTheFirstRowsCode := by
  refine fun s x => ⟨fun before code after hct hfirst => ?_, fun hst hnone => ?_⟩
  · exact exec_ctcode_of_ok (hct ▸ codeFor_of_first hfirst)
  · rw [exec_ctcode_of_raise (codeFor_of_no_row hnone), raiseError_of_st_eq_zero hst]
    rfl

/-- Settles O47: a row matches where the remaining bits begin with its code. -/
theorem ctsymDecodesByTheFirstMatchingRow : Obligations.CtsymDecodesByTheFirstMatchingRow := by
  refine fun s => ⟨fun before r after hct hmatch hfirst => ?_, fun hst hnone => ?_⟩
  · exact exec_ctsym_of_ok (hct ▸ symbolFor_of_first hmatch hfirst)
  · rw [exec_ctsym_of_raise (symbolFor_of_no_row hnone), raiseError_of_st_eq_zero hst]
    rfl

/-- Settles O39: the walk of one leaf is one row with the empty path, and every bit sequence begins with the empty code. -/
theorem ctbldOfNoTreeAndOfABareLeaf : Obligations.CtbldOfNoTreeAndOfABareLeaf := by
  refine fun s => ⟨fun hroot => ?_, fun x w hnm hroot => ?_, fun x hct => ⟨?_, fun n => ?_⟩⟩
  · have htable : buildTable s.nm s.root = .ok [] := by rw [hroot]; rfl
    rw [exec_ctbld_of_ok htable, countWord_of_lt 0x40 (by decide)]
    rfl
  · have htable : buildTable s.nm s.root = .ok [⟨x, []⟩] := by
      rw [hnm, hroot]
      rfl
    rw [exec_ctbld_of_ok htable, countWord_of_lt 0x40 (by simp)]
    rfl
  · exact (ctsymDecodesByTheFirstMatchingRow s).1 [] ⟨x, []⟩ [] hct List.nil_prefix nofun
  · simp [hct, codeOf]

end Sys2Proof.Proofs
end

section
/-! PROOFS. COMP's bit stream is the artifact of its text, so COMP raises no error (43_code_table.md R187,
44_codec_sequences.md R200). -/

namespace Sys2Proof.Proofs

open Sys2Proof.Machine Sys2Proof.Spec

theorem encodeText_of_subset {ct : List Row} {t : List Symbol} (h : t ⊆ ct.map Row.sym) :
    encodeText ct t = .ok (t.flatMap (codeOf ct)) := by
  induction t with
  | nil => rfl
  | cons x t ih =>
    obtain ⟨hx, ht⟩ := List.cons_subset.mp h
    rw [encodeText, codeFor_of_mem hx, ih ht]
    rfl

/-- Every text has an artifact, made with the table of its tree (R59, R60). -/
theorem artifactBits_eq_artifact (t : List Symbol) :
    ∃ ct, buildTable (buildTree t).1 (buildTree t).2 = .ok ct ∧ artifactBits t = .ok (artifact t ct) := by
  obtain ⟨ct, hct, hsub⟩ := buildTable_buildTree t
  refine ⟨ct, hct, ?_⟩
  by_cases hne : t = []
  · subst hne
    rfl
  · simp [artifactBits, hct, encodeText_of_subset hsub, artifact, hne, field_eq_lsbf, serialise_eq_tableBits, bind,
      Except.bind, pure, Except.pure]

theorem classOf_okWords (p : List Word) : classOf (.response (okWords p)) = 0 :=
  classOf_respHeader ..

theorem errField_setRef_capacity (st : Word) : errField (setRef st RefuseReason.capacity.code) = errField st := by
  calc errField (setRef st RefuseReason.capacity.code)
      = (st.extractLsb' 0 4 &&& BitVec.allOnes 4) ||| 0#4 := by
        rw [errField, setRef, BitVec.extractLsb'_or, BitVec.extractLsb'_and]
        rfl
    _ = errField st := by rw [BitVec.and_allOnes, BitVec.or_zero, errField]

/-- Settles O51: the artifact's bits always exist, and COMP either packs them or is refused for their number. -/
theorem compNeverRaises : Obligations.CompNeverRaises := by
  intro s
  obtain ⟨ct, -, hbits⟩ := artifactBits_eq_artifact s.txt
  rcases Nat.lt_or_ge (pkCap s.cfg) (artifact s.txt ct).length with hlong | hfit
  · rw [exec_comp_of_exceeds hbits hlong]
    exact ⟨_, rfl, by simp, errField_setRef_capacity s.st⟩
  · rw [exec_comp_of_fits hbits hfit]
    exact ⟨_, rfl, by simp [classOf_okWords], rfl⟩

end Sys2Proof.Proofs
end

section
/-! PROOFS. COMP: the table of a text, COMP's outcomes in the spec's words, and the same bytes from single-unit commands
(44_codec_sequences.md R200 to R203). -/

namespace Sys2Proof.Proofs

open Sys2Proof.Machine Sys2Proof.Spec

/-! ## The table of a text (R200) -/

/-- `ct` is the table that TBLD and CTBLD make of the text `x`. -/
def TableOfText (x : List Symbol) (ct : List Row) : Prop :=
  buildTable (buildTree x).1 (buildTree x).2 = .ok ct

theorem exists_tableOfText (x : List Symbol) : ∃ ct, TableOfText x ct :=
  (buildTable_buildTree x).imp fun _ h => h.1

theorem TableOfText.unique {x : List Symbol} {ct ct' : List Row} (h : TableOfText x ct) (h' : TableOfText x ct') :
    ct = ct' :=
  Except.ok.inj (h.symm.trans h')

theorem TableOfText.subset {x : List Symbol} {ct : List Row} (h : TableOfText x ct) : x ⊆ ct.map Row.sym := by
  obtain ⟨ct', h', hsub⟩ := buildTable_buildTree x
  rwa [h.unique h']

theorem TableOfText.artifactBits_eq {x : List Symbol} {ct : List Row} (h : TableOfText x ct) :
    artifactBits x = .ok (artifact x ct) := by
  obtain ⟨ct', h', hbits⟩ := artifactBits_eq_artifact x
  rwa [h.unique h']

/-- The table of a text that is not empty fits the format and has a row. -/
theorem TableOfText.serialisable {x : List Symbol} {ct : List Row} (h : TableOfText x ct) (hne : x ≠ [])
    (hlen : x.length < 2 ^ 32) : Serialisable ct := by
  refine ⟨?_, buildTable_tableOk (buildTree_treeOk hlen) h⟩
  rintro rfl
  exact hne (List.subset_nil.mp h.subset)

/-- The state after TBLD and CTBLD (R203), when the text's table is `ct`. -/
def afterTables (s : State) (ct : List Row) : State :=
  { s with nm := (buildTree s.txt).1, root := (buildTree s.txt).2, ct := ct, out := okOut [countWord 0x40 ct.length] }

theorem execAll_tbld_ctbld {s : State} {ct : List Row} (h : TableOfText s.txt ct) :
    execAll [.tbld, .ctbld] s = .next (afterTables s ct) := by
  rw [execAll_cons (exec_tbld s), execAll_singleton, exec_ctbld_of_ok ?_]
  · rfl
  · exact h

theorem eq_afterTables_of_execAll {s t : State} (h : execAll [.tbld, .ctbld] s = .next t) :
    ∃ ct, TableOfText s.txt ct ∧ t = afterTables s ct := by
  obtain ⟨ct, hct⟩ := exists_tableOfText s.txt
  rw [execAll_tbld_ctbld hct] at h
  exact ⟨ct, hct, (Host.Outcome.next.inj h).symm⟩

/-! ## The artifact's length (R61) -/

theorem length_artifact (x : List Symbol) (ct : List Row) : (artifact x ct).length = artifactLength x ct := by
  unfold artifact artifactLength
  split
  · exact length_field 0 32
  · simp only [List.length_append, length_field, length_tableBits, List.length_flatMap]
    omega

/-! ## COMP's two outcomes (R200, R202) -/

/-- COMP completed with the bits `bits` (R200). -/
def afterComp (s : State) (bits : Bits) : State :=
  { s with pkBits := [], up := ⟨[], 0⟩, nm := [], root := none, ct := [],
           buf := pack bits, out := okOut [countWord 0x50 (pack bits).length] }

theorem exec_comp_of_artifact_fits {s : State} {ct : List Row} (hct : TableOfText s.txt ct)
    (hfit : artifactLength s.txt ct ≤ 8 * s.cfg.bufCap) :
    exec .comp s = .next (afterComp s (artifact s.txt ct)) :=
  exec_comp_of_fits hct.artifactBits_eq ((length_artifact s.txt ct).trans_le hfit)

theorem exec_comp_of_artifact_exceeds {s : State} {ct : List Row} (hct : TableOfText s.txt ct)
    (hlong : 8 * s.cfg.bufCap < artifactLength s.txt ct) : exec .comp s = .next (s.refuseCommand .capacity) :=
  exec_comp_of_exceeds hct.artifactBits_eq (hlong.trans_eq (length_artifact s.txt ct).symm)

/-- A COMP whose response is OK packed the text's artifact, which fits. -/
theorem eq_afterComp_of_classOf_eq_zero {s c : State} {ct : List Row} (hct : TableOfText s.txt ct)
    (h : exec .comp s = .next c) (hok : classOf c.out = 0) :
    artifactLength s.txt ct ≤ 8 * s.cfg.bufCap ∧ c = afterComp s (artifact s.txt ct) := by
  rcases Nat.lt_or_ge (8 * s.cfg.bufCap) (artifactLength s.txt ct) with hlong | hfit
  · rw [exec_comp_of_artifact_exceeds hct hlong] at h
    cases h
    simp at hok
  · rw [exec_comp_of_artifact_fits hct hfit] at h
    cases h
    exact ⟨hfit, rfl⟩

/-- Settles O48: the artifact's bits are packed, and their number gives the result word. -/
theorem compWritesTheArtifact : Obligations.CompWritesTheArtifact := by
  intro s _
  obtain ⟨ct, hct⟩ := exists_tableOfText s.txt
  refine ⟨_, execAll_tbld_ctbld hct, fun hfit => ⟨_, exec_comp_of_artifact_fits hct hfit, fun hlen => ?_⟩⟩
  rw [countWord_of_lt 0x50 hlen, length_pack, length_artifact]

/-- Settles O49: the capacity is tested against the artifact's length. -/
theorem compBeyondCapacityIsRefused : Obligations.CompBeyondCapacityIsRefused := by
  intro s t hst _ htable hlong
  obtain ⟨ct, hct, rfl⟩ := eq_afterTables_of_execAll htable
  rw [exec_comp_of_artifact_exceeds hct hlong, refuseCommand_of_st_eq_zero hst (by decide)]
  rfl

/-- Settles O50: the empty text's artifact is a count of 32 zero bits. -/
theorem compOfTheEmptyText : Obligations.CompOfTheEmptyText := by
  intro s htxt hcap
  have htable : TableOfText s.txt [] := htxt ▸ rfl
  have hfit : artifactLength s.txt [] ≤ 8 * s.cfg.bufCap := by
    rw [artifactLength, if_pos htxt]
    omega
  have hbytes : pack (artifact s.txt []) = [0, 0, 0, 0] := by
    rw [artifact, if_pos htxt]
    decide
  rw [exec_comp_of_artifact_fits htable hfit, afterComp, hbytes, countWord_of_lt 0x50 (by decide)]
  rfl

/-! ## COMP as single-unit commands (R203) -/

theorem execAll_append {is js : List Instr} {s t : State} (h : execAll is s = .next t) :
    execAll (is ++ js) s = execAll js t := by
  induction is generalizing s with
  | nil =>
    cases h
    rfl
  | cons i is ih =>
    cases hi : exec i s with
    | next u =>
      rw [execAll_cons hi] at h
      rw [List.cons_append, execAll_cons hi, ih h]
    | fault f => simp [execAll, hi] at h
    | refused r => simp [execAll, hi] at h

theorem execAll_snoc {is : List Instr} {s t : State} (h : execAll is s = .next t) (i : Instr) :
    execAll (is ++ [i]) s = exec i t :=
  (execAll_append h).trans (execAll_singleton i t)

/-- The loop over the text appends the codes of its symbols to the packer, in order. -/
theorem execAll_codes {s : State} {x : List Symbol} (hx : x ⊆ s.ct.map Row.sym)
    (hfit : s.pkBits.length + (x.flatMap (codeOf s.ct)).length ≤ 8 * s.cfg.bufCap) :
    ∃ out, execAll (x.flatMap fun y => [.ctcode y, .pkb (codeOf s.ct y)]) s =
      .next { s with pkBits := s.pkBits ++ x.flatMap (codeOf s.ct), out := out } := by
  induction x generalizing s with
  | nil => exact ⟨s.out, by simp [execAll]⟩
  | cons y x ih =>
    obtain ⟨hy, hx⟩ := List.cons_subset.mp hx
    rw [List.flatMap_cons, List.length_append] at hfit
    obtain ⟨out, hrest⟩ := ih (s := { s with pkBits := s.pkBits ++ codeOf s.ct y, out := okOut [] }) hx
      (by simpa [Nat.add_assoc] using hfit)
    refine ⟨out, ?_⟩
    rw [List.flatMap_cons, List.cons_append, List.cons_append, List.nil_append,
      execAll_cons (exec_ctcode_of_ok (codeFor_of_mem hy)), execAll_cons (exec_pkb_of_fits ?_), hrest]
    · simp
    · show s.pkBits.length + (codeOf s.ct y).length ≤ 8 * s.cfg.bufCap
      omega

theorem exec_pkf_32_of_fits {s : State} {v : Nat} (hv : v < 2 ^ 32)
    (hfit : s.pkBits.length + 32 ≤ 8 * s.cfg.bufCap) :
    exec (.pkf (BitVec.ofNat 32 v) 32) s = .next { s with pkBits := s.pkBits ++ field v 32, out := okOut [] } := by
  have hvalue : (BitVec.ofNat 32 v).toNat = v := Nat.mod_eq_of_lt hv
  rw [exec_pkf_eq_exec_pkb, hvalue, exec_pkb_of_fits (by simpa using hfit)]
  rfl

/-- Behind TBLD and CTBLD, the sequence of R203 builds the artifact's bits in the packer. -/
theorem execAll_pkf_ctser_codes {s : State} {x : List Symbol} (hpk : s.pkBits = []) (hne : x ≠ [])
    (hlen : x.length < 2 ^ 32) (hct : s.ct ≠ []) (hx : x ⊆ s.ct.map Row.sym)
    (hfit : artifactLength x s.ct ≤ 8 * s.cfg.bufCap) :
    ∃ out, execAll ([.pkf (BitVec.ofNat 32 x.length) 32, .ctser] ++
        x.flatMap fun y => [.ctcode y, .pkb (codeOf s.ct y)]) s =
      .next { s with pkBits := artifact x s.ct, out := out } := by
  have hartifact : artifact x s.ct = field x.length 32 ++ tableBits s.ct ++ x.flatMap (codeOf s.ct) := by
    rw [artifact, if_neg hne]
  rw [← length_artifact, hartifact, List.length_append, List.length_append, length_field] at hfit
  have hheader : execAll [.pkf (BitVec.ofNat 32 x.length) 32, .ctser] s =
      .next { s with pkBits := field x.length 32 ++ tableBits s.ct, out := okOut [] } := by
    rw [execAll_cons (exec_pkf_32_of_fits hlen (by simp [hpk]; omega)), execAll_singleton,
      ctserAppendsTheSerialisedTable _ ?_ ?_]
    · simp [hpk]
    · exact hct
    · simp [hpk]
      omega
  obtain ⟨out, hcodes⟩ := execAll_codes (x := x)
    (s := { s with pkBits := field x.length 32 ++ tableBits s.ct, out := okOut [] }) hx (by simpa using hfit)
  exact ⟨out, by rw [execAll_append hheader, hcodes, hartifact]⟩

/-- Settles O53: the single-unit commands build the artifact's bits in the packer, and PKFIN packs them as COMP does. -/
theorem compEqualsTheUnitCommands : Obligations.CompEqualsTheUnitCommands := by
  intro s t c hst hpk hlen htable hcomp hok
  obtain ⟨ct, hct, rfl⟩ := eq_afterTables_of_execAll htable
  obtain ⟨hfit, rfl⟩ := eq_afterComp_of_classOf_eq_zero hct hcomp hok
  by_cases hne : s.txt = []
  · have hcap : s.pkBits.length + 32 ≤ 8 * s.cfg.bufCap := by
      rw [hpk]
      simpa [artifactLength, hne] using hfit
    have hbits : s.pkBits ++ field 0 32 = artifact s.txt ct := by rw [hpk, artifact, if_pos hne, List.nil_append]
    have hcount : exec (.pkf 0 32) s = .next { s with pkBits := artifact s.txt ct, out := okOut [] } :=
      hbits ▸ exec_pkf_32_of_fits (by decide) hcap
    rw [if_pos hne, execAll_cons hcount, execAll_singleton, exec_pkfin]
    exact ⟨_, rfl, rfl, hst, rfl, rfl, fun h => absurd hne h⟩
  · obtain ⟨out, hunits⟩ := execAll_pkf_ctser_codes (s := afterTables s ct) hpk hne hlen
      (hct.serialisable hne hlen).1 hct.subset hfit
    have hall := (execAll_snoc hunits .pkfin).trans (exec_pkfin _)
    rw [if_neg hne]
    exact ⟨_, (execAll_append htable).trans hall, rfl, hst, rfl, rfl, fun _ => ⟨rfl, rfl, rfl⟩⟩

end Sys2Proof.Proofs
end

section
/-! PROOFS. DECOMP: its outcomes by the first cause, and the same symbols and errors from single-unit commands
(44_codec_sequences.md R205 to R209). -/

namespace Sys2Proof.Proofs

open Sys2Proof.Machine Sys2Proof.Spec

/-! ## Decoding N symbols (R189, R205) -/

theorem Reads.drop {u v : Unpacker} {b : Bits} (h : Reads u b v) : u.bits.drop u.pos = b ++ v.bits.drop v.pos := by
  obtain ⟨⟨tail, htail⟩, rfl⟩ := h
  rw [← List.drop_drop, ← htail, List.drop_left]

theorem reads_load {b : List Byte} {bits rest : Bits} (h : unpack b = bits ++ rest) :
    Reads (Unpacker.load b) bits ⟨unpack b, bits.length⟩ :=
  ⟨⟨rest, h.symm⟩, by simp [Unpacker.load]⟩

theorem symbolFor_eq_ok_iff {ct : List Row} {u v : Unpacker} {x : Symbol} :
    symbolFor ct u = .ok (x, v) ↔ ∃ before r after, ct = before ++ r :: after ∧
      (∀ q ∈ before, ¬ q.code <+: u.bits.drop u.pos) ∧ r.sym = x ∧ Reads u r.code v := by
  constructor
  · intro h
    unfold symbolFor at h
    split at h
    · rename_i r hr
      cases h
      obtain ⟨hmatch, before, after, hct, hfirst⟩ := List.find?_eq_some_iff_append.mp hr
      exact ⟨before, r, after, hct, by simpa [← matchesAt_iff] using hfirst, rfl, (matchesAt_iff u r).mp hmatch, rfl⟩
    · cases h
  · rintro ⟨before, r, after, rfl, hfirst, rfl, hmatch, rfl⟩
    exact symbolFor_of_first hmatch hfirst

theorem decodesTo_cons_iff {ct : List Row} {bits : Bits} {x : Symbol} {xs : List Symbol} :
    DecodesTo ct bits (x :: xs) ↔ ∃ before r after tail, ct = before ++ r :: after ∧ bits = r.code ++ tail ∧
      (∀ q ∈ before, ¬ q.code <+: bits) ∧ r.sym = x ∧ DecodesTo ct tail xs := by
  constructor
  · intro h
    cases h with
    | symbol before after r tail _ table first more => exact ⟨before, r, after, tail, table, rfl, first, rfl, more⟩
  · rintro ⟨before, r, after, tail, table, rfl, first, rfl, more⟩
    exact .symbol before after r tail xs table first more

/-- The loop of R205 succeeds exactly with the symbols the spec's decoding relation gives for the bits at the cursor. -/
theorem decodeText_eq_ok_iff {ct : List Row} {n : Nat} {u : Unpacker} {xs : List Symbol} :
    decodeText ct n u = .ok xs ↔ xs.length = n ∧ DecodesTo ct (u.bits.drop u.pos) xs := by
  induction n generalizing u xs with
  | zero =>
    cases xs with
    | nil => simp [decodeText, DecodesTo.done]
    | cons x xs => simp [decodeText]
  | succ n ih =>
    simp only [decodeText, bind_eq_ok, Prod.exists, symbolFor_eq_ok_iff, ih]
    constructor
    · rintro ⟨x, v, ⟨before, r, after, hct, hfirst, rfl, hreads⟩, ys, ⟨rfl, hmore⟩, h⟩
      cases h
      exact ⟨rfl, decodesTo_cons_iff.mpr ⟨before, r, after, _, hct, hreads.drop, hfirst, rfl, hmore⟩⟩
    · rintro ⟨hlen, h⟩
      obtain ⟨x, ys, rfl⟩ := List.exists_cons_of_length_eq_add_one hlen
      obtain ⟨before, r, after, tail, hct, hbits, hfirst, rfl, hmore⟩ := decodesTo_cons_iff.mp h
      have hreads : Reads u r.code ⟨u.bits, u.pos + r.code.length⟩ := ⟨⟨tail, hbits.symm⟩, rfl⟩
      have htail : tail = u.bits.drop (u.pos + r.code.length) := List.append_cancel_left (hbits.symm.trans hreads.drop)
      exact ⟨_, _, ⟨before, r, after, hct, hfirst, rfl, hreads⟩, ys, ⟨by simpa using hlen, htail ▸ hmore⟩, rfl⟩

theorem bind_eq_error {α β : Type} {x : Except Stop α} {f : α → Except Stop β} {e : Stop} :
    (x >>= f) = .error e ↔ x = .error e ∨ ∃ a, x = .ok a ∧ f a = .error e := by
  cases x <;> simp [bind, Except.bind]

theorem symbolFor_eq_error {ct : List Row} {u : Unpacker} {e : Stop} (h : symbolFor ct u = .error e) :
    e = .raise .noMatchingCode := by
  unfold symbolFor at h
  split at h <;> cases h
  rfl

theorem decodeText_eq_error {ct : List Row} {n : Nat} {u : Unpacker} {e : Stop} (h : decodeText ct n u = .error e) :
    e = .raise .noMatchingCode := by
  induction n generalizing u with
  | zero => cases h
  | succ n ih =>
    obtain h | ⟨p, -, h⟩ := bind_eq_error.mp h
    · exact symbolFor_eq_error h
    · obtain h | ⟨xs, -, h⟩ := bind_eq_error.mp h
      · exact ih h
      · cases h

/-! ## The text of an artifact, one equation per cause (R205 to R208, R244) -/

theorem artifactText_of_short {cap : Nat} {b : List Byte} (h : b.length < 4) :
    artifactText cap b = .error (.raise .underflow) := by
  have hcount : (Unpacker.load b).readFixed cntW = .error (.raise .underflow) :=
    readFixed_underflow (by simp [Unpacker.load, Unpacker.rem, cntW]; omega)
  rw [artifactText, hcount]
  rfl

/-- What DECOMP does with the count it has read. -/
theorem artifactText_of_count {cap n : Nat} {b : List Byte} {u : Unpacker}
    (h : (Unpacker.load b).readFixed cntW = .ok (n, u)) : artifactText cap b =
      if n = 0 then .ok [] else if cap < n then .error (.refuse .capacity)
      else readTable u >>= fun p => decodeText p.1 n p.2 := by
  rw [artifactText, h]
  rfl

theorem artifactText_of_zero {cap : Nat} {b : List Byte} {u : Unpacker}
    (h : (Unpacker.load b).readFixed cntW = .ok (0, u)) : artifactText cap b = .ok [] := by
  rw [artifactText_of_count h, if_pos rfl]

theorem artifactText_of_capacity {cap n : Nat} {b : List Byte} {u : Unpacker} (hn : cap < n)
    (h : (Unpacker.load b).readFixed cntW = .ok (n, u)) : artifactText cap b = .error (.refuse .capacity) := by
  rw [artifactText_of_count h, if_neg (by omega), if_pos hn]

theorem artifactText_of_table {cap n : Nat} {b : List Byte} {u : Unpacker} (hpos : 1 ≤ n) (hn : n ≤ cap)
    (h : (Unpacker.load b).readFixed cntW = .ok (n, u)) :
    artifactText cap b = readTable u >>= fun p => decodeText p.1 n p.2 := by
  rw [artifactText_of_count h, if_neg (by omega), if_neg (by omega)]

theorem artifactText_eq_ok {cap : Nat} {b : List Byte} {x : List Symbol} (h : artifactText cap b = .ok x) :
    ∃ u, (Unpacker.load b).readFixed cntW = .ok (x.length, u) ∧
      (x ≠ [] → ∃ ct v, readTable u = .ok (ct, v) ∧ decodeText ct x.length v = .ok x) := by
  obtain ⟨⟨n, u⟩, hcount, -⟩ := bind_eq_ok.mp h
  rw [artifactText_of_count hcount] at h
  split at h
  · rename_i hzero
    subst hzero
    cases h
    exact ⟨u, hcount, fun hne => absurd rfl hne⟩
  · split at h
    · cases h
    · obtain ⟨⟨ct, v⟩, htable, htext⟩ := bind_eq_ok.mp h
      obtain rfl := (decodeText_eq_ok_iff.mp htext).1
      exact ⟨u, hcount, fun _ => ⟨ct, v, htable, htext⟩⟩

/-- The three places at which DECOMP can raise an error: the count, the table, a symbol. -/
theorem artifactText_eq_raise {cap : Nat} {b : List Byte} {k : ErrorKind} (h : artifactText cap b = .error (.raise k)) :
    (Unpacker.load b).readFixed cntW = .error (.raise k) ∨
    ∃ n u, (Unpacker.load b).readFixed cntW = .ok (n, u) ∧
      (readTable u = .error (.raise k) ∨
        ∃ ct v, readTable u = .ok (ct, v) ∧ decodeText ct n v = .error (.raise k)) := by
  obtain hshort | ⟨⟨n, u⟩, hcount, -⟩ := bind_eq_error.mp h
  · exact .inl hshort
  · rw [artifactText_of_count hcount] at h
    split at h
    · cases h
    · split at h
      · cases h
      · obtain htable | ⟨⟨ct, v⟩, htable, htext⟩ := bind_eq_error.mp h
        · exact .inr ⟨n, u, hcount, .inl htable⟩
        · exact .inr ⟨n, u, hcount, .inr ⟨ct, v, htable, htext⟩⟩

/-! ## DECOMP, one equation per outcome (R205 to R207, R236) -/

/-- DECOMP completed with the text `x` (R205). -/
def afterDecomp (s : State) (x : List Symbol) : State :=
  { s with pkBits := [], up := ⟨[], 0⟩, nm := [], root := none, ct := [],
           txt := x, out := okOut [BitVec.ofNat 32 x.length] }

theorem exec_decomp_of_ok {s : State} {x : List Symbol} (h : artifactText s.cfg.txtCap s.buf = .ok x) :
    exec .decomp s = .next (afterDecomp s x) := by
  obtain ⟨u, hcount, -⟩ := artifactText_eq_ok h
  rw [exec, execDecomp, h, afterDecomp, ← countWord_of_lt 0x51 (readFixed_eq_ok hcount).1]
  rfl

theorem exec_decomp_of_error {s : State} {e : Stop} (h : artifactText s.cfg.txtCap s.buf = .error e) :
    exec .decomp s = s.finish State.emptyTxt (.error e) := by
  rw [exec, execDecomp, h]
  rfl

theorem exec_decomp_of_raise {s : State} {k : ErrorKind} (hst : s.st = 0)
    (h : artifactText s.cfg.txtCap s.buf = .error (.raise k)) :
    exec .decomp s =
      .next { s with st := BitVec.ofNat 32 k.code.toNat, txt := [], out := errOut k.code.toNat } := by
  rw [exec_decomp_of_error h, State.finish, raiseError_of_st_eq_zero (by simpa using hst)]
  rfl

/-- The count at the front of the buffer is read whatever follows. -/
theorem readFixed_load {b : List Byte} {n : Nat} {rest : Bits} (hn : n < 2 ^ 32) (h : unpack b = field n 32 ++ rest) :
    (Unpacker.load b).readFixed cntW = .ok (n, ⟨unpack b, 32⟩) := by
  have hreads := reads_load h
  rw [length_field] at hreads
  exact readFixed_eq_ok_iff.mpr ⟨hn, hreads⟩

theorem drop_count {b : List Byte} {n : Nat} {rest : Bits} (h : unpack b = field n 32 ++ rest) :
    (unpack b).drop 32 = rest := by
  rw [h, List.drop_left' (length_field n 32)]

/-- Behind the count lies a table: it is read, and the symbols are decoded from what follows it. -/
theorem artifactText_of_serialised {cap n : Nat} {b : List Byte} {ct : List Row} {rest : Bits} (hpos : 1 ≤ n)
    (hlt : n < 2 ^ 32) (hn : n ≤ cap) (hct : Serialisable ct) (h : unpack b = field n 32 ++ tableBits ct ++ rest) :
    ∃ v, artifactText cap b = decodeText ct n v ∧ v.bits.drop v.pos = rest := by
  rw [List.append_assoc] at h
  have hreads : Reads ⟨unpack b, 32⟩ (tableBits ct) ⟨unpack b, 32 + (tableBits ct).length⟩ :=
    ⟨⟨rest, (drop_count h).symm⟩, rfl⟩
  refine ⟨_, ?_, List.append_cancel_left (hreads.drop.symm.trans (drop_count h))⟩
  rw [artifactText_of_table hpos hn (readFixed_load hlt h), readTable_eq_ok_iff.mpr ⟨hct, hreads⟩]
  rfl

/-- Settles O54: the count, the table and the symbols are read one behind the other. -/
theorem decompDecodesTheArtifact : Obligations.DecompDecodesTheArtifact := by
  intro s ct rest xs hne hlt hcap hct hbits hdec
  obtain ⟨v, htext, rfl⟩ := artifactText_of_serialised (List.length_pos_iff.mpr hne) hlt hcap hct hbits
  exact exec_decomp_of_ok (htext.trans (decodeText_eq_ok_iff.mpr ⟨rfl, hdec⟩))

/-- Settles O55: both outcomes follow from the count alone. -/
theorem decompOfZeroAndOfTooLargeCounts : Obligations.DecompOfZeroAndOfTooLargeCounts := by
  intro s n rest hlt hbits
  have hcount := readFixed_load hlt hbits
  refine ⟨?_, fun hst hcap => ?_⟩
  · rintro rfl
    exact exec_decomp_of_ok (artifactText_of_zero hcount)
  · rw [exec_decomp_of_error (artifactText_of_capacity hcap hcount), State.finish,
      refuseCommand_of_st_eq_zero hst (by decide)]
    rfl

/-- Settles O56: the count comes before the table and the table before the symbols. -/
theorem decompFailsByTheFirstCause : Obligations.DecompFailsByTheFirstCause := by
  intro s hst
  refine ⟨fun hshort => ?_, fun n rest hpos hlt hcap hbits hcut => ?_,
    fun n ct rest hpos hlt hcap hct hbits hnone => ?_⟩
  · exact exec_decomp_of_raise hst (artifactText_of_short hshort)
  · refine exec_decomp_of_raise (k := .underflow) hst ?_
    have htable : readTable ⟨unpack s.buf, 32⟩ = .error (.raise .underflow) := by
      refine readTable_underflow fun ct hct ⟨tail, htail⟩ => hcut ct tail hct ?_
      exact (drop_count hbits).symm.trans htail.symm
    rw [artifactText_of_table hpos hcap (readFixed_load hlt hbits), htable]
    rfl
  · obtain ⟨v, htext, rfl⟩ := artifactText_of_serialised hpos hlt hcap hct hbits
    refine exec_decomp_of_raise (k := .noMatchingCode) hst ?_
    rw [htext]
    cases hdec : decodeText ct n v with
    | error e => rw [decodeText_eq_error hdec]
    | ok xs =>
      obtain ⟨hlen, hxs⟩ := decodeText_eq_ok_iff.mp hdec
      exact absurd hxs (hnone xs hlen)

/-! ## DECOMP as single-unit commands (R209) -/

/-- The state after UPLD. -/
def afterUpld (s : State) : State :=
  { s with up := Unpacker.load s.buf, out := okOut [BitVec.ofNat 32 (8 * s.buf.length)] }

theorem exec_upld_eq (s : State) : exec .upld s = .next (afterUpld s) :=
  exec_upld s

/-- The state after a UPRF that read the count `n` and left the unpacker as `u`. -/
def afterCount (s : State) (n : Nat) (u : Unpacker) : State :=
  { s with up := u, out := okOut [BitVec.ofNat 32 n] }

/-- The state after a CTDES that read the table `ct` and left the unpacker as `v`. -/
def afterCtdes (s : State) (ct : List Row) (v : Unpacker) : State :=
  { s with ct := ct, up := v, out := okOut [BitVec.ofNat 32 ct.length] }

section Reading

variable {s : State} {n : Nat} {u v : Unpacker} {ct : List Row} {k : ErrorKind}

theorem exec_uprf_afterUpld (h : (Unpacker.load s.buf).readFixed cntW = .ok (n, u)) :
    exec (.uprf 32) (afterUpld s) = .next (afterCount s n u) := by
  have hread : (afterUpld s).up.readFixed (32 : BitVec 8).toNat = .ok (n, u) := h
  rw [exec, execUprf, hread]
  rfl

theorem exec_uprf_afterUpld_of_raise (h : (Unpacker.load s.buf).readFixed cntW = .error (.raise k)) :
    exec (.uprf 32) (afterUpld s) = .next ((afterUpld s).raiseError k) := by
  have hread : (afterUpld s).up.readFixed (32 : BitVec 8).toNat = .error (.raise k) := h
  rw [exec, execUprf, hread]
  rfl

theorem exec_ctdes_afterCount (h : readTable u = .ok (ct, v)) :
    exec .ctdes (afterCount s n u) = .next (afterCtdes s ct v) := by
  obtain ⟨hct, hahead, rfl⟩ := readTable_eq_ok_iff.mp h
  exact exec_ctdes_of_prefix (s := afterCount s n u) hct hahead

theorem exec_ctdes_afterCount_of_raise (h : readTable u = .error (.raise k)) :
    exec .ctdes (afterCount s n u) = .next ((afterCount s n u).raiseError k) := by
  have hread : readTable (afterCount s n u).up = .error (.raise k) := h
  rw [exec, execCtdes, hread]
  rfl

end Reading

/-- N times CTSYM answers the symbols that the loop of R205 decodes. -/
theorem execOuts_ctsym {s : State} {n : Nat} {xs : List Symbol} (h : decodeText s.ct n s.up = .ok xs) :
    ∃ t, execOuts (List.replicate n .ctsym) s = some (xs.map fun x => okOut [BitVec.ofNat 32 x.toNat], t) := by
  induction n generalizing s xs with
  | zero =>
    cases h
    exact ⟨s, rfl⟩
  | succ n ih =>
    obtain ⟨⟨x, u⟩, hx, h⟩ := bind_eq_ok.mp h
    obtain ⟨ys, hys, h⟩ := bind_eq_ok.mp h
    cases h
    obtain ⟨t, ht⟩ := ih (s := { s with up := u, out := okOut [BitVec.ofNat 32 x.toNat] }) hys
    exact ⟨t, by rw [List.replicate_succ, execOuts_cons (exec_ctsym_of_ok hx), ht]; rfl⟩

/-- Where the loop of R205 raises an error, some CTSYM of the N raises it, those before it ending ok. -/
theorem execAll_ctsym_of_raise {s : State} {n : Nat} {k : ErrorKind} (h : decodeText s.ct n s.up = .error (.raise k)) :
    ∃ j t, j < n ∧ execAll (List.replicate j .ctsym) s = .next t ∧ t.st = s.st ∧
      exec .ctsym t = .next (t.raiseError k) := by
  induction n generalizing s with
  | zero => cases h
  | succ n ih =>
    obtain hx | ⟨⟨x, u⟩, hx, h⟩ := bind_eq_error.mp h
    · exact ⟨0, s, Nat.succ_pos n, rfl, rfl, exec_ctsym_of_raise hx⟩
    · obtain hmore | ⟨ys, -, h⟩ := bind_eq_error.mp h
      · obtain ⟨j, t, hj, ht, hst, hlast⟩ :=
          ih (s := { s with up := u, out := okOut [BitVec.ofNat 32 x.toNat] }) hmore
        exact ⟨j + 1, t, Nat.succ_lt_succ hj, by rw [List.replicate_succ, execAll_cons (exec_ctsym_of_ok hx), ht], hst,
          hlast⟩
      · cases h

/-- Settles O57: UPLD, UPRF and CTDES read the count and the table as DECOMP does, and CTSYM decodes its symbols. -/
theorem decompEqualsTheUnitCommands : Obligations.DecompEqualsTheUnitCommands := by
  intro s t hdecomp hok
  cases htext : artifactText s.cfg.txtCap s.buf with
  | error e =>
    rw [exec_decomp_of_error htext] at hdecomp
    exact absurd hok (finish_error_out_eq hdecomp hdecomp).2
  | ok x =>
    rw [exec_decomp_of_ok htext] at hdecomp
    cases hdecomp
    obtain ⟨u, hcount, htable⟩ := artifactText_eq_ok htext
    have htxt : (afterDecomp s x).txt = x := rfl
    rw [htxt]
    by_cases hne : x = []
    · subst hne
      refine ⟨afterCount s 0 u, 0, ?_⟩
      rw [if_pos rfl, if_pos rfl, execOuts_cons (exec_upld_eq s), execOuts_cons (exec_uprf_afterUpld hcount)]
      rfl
    · obtain ⟨ct, v, hct, hsyms⟩ := htable hne
      obtain ⟨t, ht⟩ := execOuts_ctsym (s := afterCtdes s ct v) hsyms
      refine ⟨t, ct.length, ?_⟩
      rw [if_neg hne, if_neg hne, List.cons_append, List.cons_append, List.cons_append, List.nil_append,
        execOuts_cons (exec_upld_eq s), execOuts_cons (exec_uprf_afterUpld hcount),
        execOuts_cons (exec_ctdes_afterCount hct), ht]
      rfl

theorem classOf_errOut (e : Nat) : classOf (errOut e) = 1 := by
  simp [classOf, errOut]
  omega

/-- A DECOMP that answers an error raised it while reading its artifact. -/
theorem artifactText_raise_of_errOut {s t : State} {e : Nat} (h : exec .decomp s = .next t) (hout : t.out = errOut e) :
    ∃ k, artifactText s.cfg.txtCap s.buf = .error (.raise k) ∧ .response (errorResponse k) = errOut e := by
  have hclass : classOf t.out = 1 := hout ▸ classOf_errOut e
  cases htext : artifactText s.cfg.txtCap s.buf with
  | ok x =>
    rw [exec_decomp_of_ok htext] at h
    cases h
    cases hclass
  | error stop =>
    rw [exec_decomp_of_error htext] at h
    cases stop with
    | raise k =>
      cases h
      exact ⟨k, rfl, hout⟩
    | refuse r =>
      cases h
      simp at hclass
    | stuck f => cases h

/-- Settles O58: the count is UPRF's, the table CTDES's and each symbol a CTSYM's, and each raises what DECOMP raises there. -/
theorem decompFailsWhereTheUnitCommandsFail : Obligations.DecompFailsWhereTheUnitCommandsFail := by
  intro s t e hst hdecomp hout _
  obtain ⟨k, htext, hk⟩ := artifactText_raise_of_errOut hdecomp hout
  have hupld : execAll [.upld] s = .next (afterUpld s) := (execAll_singleton _ _).trans (exec_upld_eq s)
  obtain hcount | ⟨n, u, hcount, hrest⟩ := artifactText_eq_raise htext
  · exact ⟨0, [.upld], .uprf 32, afterUpld s, _, by decide, by simp, hupld, hst, exec_uprf_afterUpld_of_raise hcount, hk⟩
  · have huprf : execAll [.upld, .uprf 32] s = .next (afterCount s n u) :=
      (execAll_snoc hupld _).trans (exec_uprf_afterUpld hcount)
    obtain htable | ⟨ct, v, htable, hsyms⟩ := hrest
    · exact ⟨0, [.upld, .uprf 32], .ctdes, afterCount s n u, _, by decide, by simp, huprf, hst,
        exec_ctdes_afterCount_of_raise htable, hk⟩
    · have hctdes : execAll [.upld, .uprf 32, .ctdes] s = .next (afterCtdes s ct v) :=
        (execAll_snoc huprf _).trans (exec_ctdes_afterCount htable)
      obtain ⟨j, w, hj, hw, hwst, hlast⟩ := execAll_ctsym_of_raise (s := afterCtdes s ct v) hsyms
      refine ⟨n, [.upld, .uprf 32, .ctdes] ++ List.replicate j .ctsym, .ctsym, w, _, ?_, fun _ => ?_, ?_,
        hwst.trans hst, hlast, hk⟩
      · rw [List.append_assoc, ← List.replicate_succ', List.prefix_append_right_inj]
        exact ⟨List.replicate (n - (j + 1)) .ctsym, by rw [← List.replicate_add, Nat.add_sub_cancel' hj]⟩
      · exact ⟨_, (readFixed_eq_ok_iff.mp hcount).2.drop⟩
      · exact (execAll_append hctdes).trans hw

end Sys2Proof.Proofs
end

section
/-! PROOFS. The round trip of COMP and DECOMP, and the truncated artifacts (44_codec_sequences.md R210, R211). -/

namespace Sys2Proof.Proofs

open Sys2Proof.Machine Sys2Proof.Spec

/-! ## Decoding with a prefix code (R173) -/

/-- A table with one row per symbol whose codes do not begin each other. -/
structure PrefixCode (ct : List Row) : Prop where
  symbols : (ct.map Row.sym).Nodup
  prefixFree : ct.Pairwise fun a b => ¬ a.code <+: b.code ∧ ¬ b.code <+: a.code

theorem TableOfText.prefixCode {x : List Symbol} {ct : List Row} (h : TableOfText x ct) (hne : x ≠ [])
    (hlen : x.length < 2 ^ 32) : PrefixCode ct := by
  obtain ⟨t, ht, -, hsymbols, -, hfree, -, -⟩ :=
    builtTablesArePrefixFreeAndComplete { State.reset with txt := x } hne hlen
  rw [execAll_tbld_ctbld h] at ht
  cases ht
  exact ⟨hsymbols, hfree⟩

section Decoding

variable {ct : List Row} (h : PrefixCode ct)

include h

theorem PrefixCode.codeOf_sym {r : Row} (hr : r ∈ ct) : codeOf ct r.sym = r.code := by
  cases hfind : ct.find? (fun q => q.sym == r.sym) with
  | none => exact absurd (beq_self_eq_true r.sym) (List.find?_eq_none.mp hfind r hr)
  | some q =>
    have hsym : q.sym = r.sym := by simpa using List.find?_some hfind
    obtain rfl := List.inj_on_of_nodup_map h.symbols (List.mem_of_find?_eq_some hfind) hr hsym
    simp [codeOf, hfind]

/-- Where the bits begin with a row's code, they begin with no earlier row's. -/
theorem PrefixCode.first_match {before after : List Row} {r : Row} (hct : ct = before ++ r :: after) {bits : Bits}
    (hr : r.code <+: bits) : ∀ q ∈ before, ¬ q.code <+: bits := by
  intro q hq hbits
  obtain ⟨hqr, hrq⟩ := (List.pairwise_append.mp (hct ▸ h.prefixFree)).2.2 q hq r List.mem_cons_self
  exact (List.prefix_or_prefix_of_prefix hbits hr).elim hqr hrq

/-- With a prefix code, bits decode to exactly the texts of its symbols whose codes they begin with. -/
theorem PrefixCode.decodesTo_iff {bits : Bits} {xs : List Symbol} :
    DecodesTo ct bits xs ↔ xs ⊆ ct.map Row.sym ∧ xs.flatMap (codeOf ct) <+: bits := by
  induction xs generalizing bits with
  | nil => simp [DecodesTo.done]
  | cons x xs ih =>
    simp only [decodesTo_cons_iff, ih, List.cons_subset, List.flatMap_cons]
    constructor
    · rintro ⟨before, r, after, tail, hct, rfl, -, rfl, hxs, htail⟩
      have hr : r ∈ ct := hct ▸ List.mem_append_right before List.mem_cons_self
      rw [h.codeOf_sym hr, List.prefix_append_right_inj]
      exact ⟨⟨List.mem_map_of_mem hr, hxs⟩, htail⟩
    · rintro ⟨⟨hx, hxs⟩, rest, hrest⟩
      obtain ⟨r, hr, rfl⟩ := List.mem_map.mp hx
      obtain ⟨before, after, hct⟩ := List.append_of_mem hr
      rw [h.codeOf_sym hr, List.append_assoc] at hrest
      exact ⟨before, r, after, _, hct, hrest.symm, h.first_match hct ⟨_, hrest⟩, rfl, hxs, List.prefix_append _ _⟩

end Decoding

/-- The same bits do not decode to two texts of the same length. -/
theorem decodesTo_unique {ct : List Row} {bits : Bits} {xs ys : List Symbol} (hx : DecodesTo ct bits xs)
    (hy : DecodesTo ct bits ys) (hlen : xs.length = ys.length) : xs = ys := by
  have htext := (decodeText_eq_ok_iff (u := ⟨bits, 0⟩)).mpr ⟨hlen, hx⟩
  rw [(decodeText_eq_ok_iff (u := ⟨bits, 0⟩)).mpr ⟨rfl, hy⟩] at htext
  exact (Except.ok.inj htext).symm

/-- Cut codes of a text do not decode to a text of its length (R211). -/
theorem PrefixCode.not_decodesTo_of_cut {ct : List Row} (h : PrefixCode ct) {x xs : List Symbol} {tail : Bits}
    (hx : x ⊆ ct.map Row.sym) (htail : tail <+: x.flatMap (codeOf ct))
    (hcut : tail.length < (x.flatMap (codeOf ct)).length) (hlen : xs.length = x.length) : ¬ DecodesTo ct tail xs := by
  intro hxs
  obtain ⟨hsub, hcodes⟩ := h.decodesTo_iff.mp hxs
  have hxs' : DecodesTo ct (x.flatMap (codeOf ct)) xs := h.decodesTo_iff.mpr ⟨hsub, hcodes.trans htail⟩
  obtain rfl := decodesTo_unique hxs' (h.decodesTo_iff.mpr ⟨hx, List.prefix_rfl⟩) hlen
  have := hcodes.length_le
  omega

/-! ## The round trip (R210) -/

theorem artifact_of_ne_nil {x : List Symbol} (hne : x ≠ []) (ct : List Row) :
    artifact x ct = field x.length 32 ++ tableBits ct ++ x.flatMap (codeOf ct) := by
  rw [artifact, if_neg hne]

/-- DECOMP of a buffer whose bits begin with the artifact of a text gives the text. -/
theorem exec_decomp_of_artifact {s : State} {x : List Symbol} {ct : List Row} {pad : Bits} (hct : TableOfText x ct)
    (hlen : x.length < 2 ^ 32) (hcap : x.length ≤ s.cfg.txtCap) (hbits : unpack s.buf = artifact x ct ++ pad) :
    exec .decomp s = .next (afterDecomp s x) := by
  by_cases hne : x = []
  · subst hne
    exact (decompOfZeroAndOfTooLargeCounts s 0 pad (by decide) hbits).1 rfl
  · rw [artifact_of_ne_nil hne, List.append_assoc] at hbits
    exact decompDecodesTheArtifact s ct _ x hne hlen hcap (hct.serialisable hne hlen) hbits
      ((hct.prefixCode hne hlen).decodesTo_iff.mpr ⟨hct.subset, List.prefix_append _ _⟩)

/-- Settles O59: COMP packs the artifact, whose table is a prefix code, and DECOMP reads it back. -/
theorem compThenDecompRestoresTheText : Obligations.CompThenDecompRestoresTheText := by
  intro s t hlen hcap htable hfit
  obtain ⟨ct, hct, rfl⟩ := eq_afterTables_of_execAll htable
  have hdecomp : exec .decomp (afterComp s (artifact s.txt ct)) =
      .next (afterDecomp (afterComp s (artifact s.txt ct)) s.txt) :=
    exec_decomp_of_artifact hct hlen hcap (packAndUnpackAreInverse.1 _)
  exact ⟨_, _, exec_comp_of_artifact_fits hct hfit, rfl, hdecomp, rfl, rfl, rfl, rfl⟩

/-! ## Truncated artifacts (R211) -/

theorem unpack_take (b : List Byte) (m : Nat) : unpack (b.take m) = (unpack b).take (8 * m) := by
  induction b generalizing m with
  | nil => simp
  | cons x b ih =>
    cases m with
    | zero => simp
    | succ m =>
      have hbyte : (lsbf x.toNat 8).take (8 * (m + 1)) = lsbf x.toNat 8 :=
        List.take_of_length_le (by rw [length_lsbf]; omega)
      rw [List.take_succ_cons, unpack_cons, unpack_cons, ih, List.take_append, hbyte, length_lsbf, Nat.mul_succ,
        Nat.add_sub_cancel]

/-- Fewer bytes than a packed stream has hold fewer bits than the stream, and they are its first. -/
theorem unpack_take_pack {bits : Bits} {m : Nat} (h : m < (pack bits).length) :
    unpack ((pack bits).take m) = bits.take (8 * m) ∧ 8 * m < bits.length := by
  rw [length_pack] at h
  have hlt : 8 * m < bits.length := by omega
  rw [unpack_take, packAndUnpackAreInverse.1, List.take_append_of_le_length hlt.le]
  exact ⟨rfl, hlt⟩

/-- The same bits do not begin with two serialised tables. -/
theorem tableBits_unique {ct ct' : List Row} {bits : Bits} (hct : Serialisable ct) (hct' : Serialisable ct')
    (h : tableBits ct <+: bits) (h' : tableBits ct' <+: bits) : ct = ct' := by
  have hread := (readTable_eq_ok_iff (u := ⟨bits, 0⟩)).mpr ⟨hct, h, rfl⟩
  rw [(readTable_eq_ok_iff (u := ⟨bits, 0⟩)).mpr ⟨hct', h', rfl⟩] at hread
  exact (congrArg Prod.fst (Except.ok.inj hread)).symm

/-- A whole count, and behind it less than the table and codes of the text: the table or a symbol is cut. -/
theorem exec_decomp_of_cut_behind_count {s : State} {x : List Symbol} {ct : List Row} {n : Nat} (hst : s.st = 0)
    (hct : TableOfText x ct) (hne : x ≠ []) (hlen : x.length < 2 ^ 32) (hcap : x.length ≤ s.cfg.txtCap)
    (hbits : unpack s.buf = field x.length 32 ++ (tableBits ct ++ x.flatMap (codeOf ct)).take n)
    (hcut : n < (tableBits ct ++ x.flatMap (codeOf ct)).length) :
    exec .decomp s = .next { s with st := 1, txt := [], out := errOut 1 } ∨
    exec .decomp s = .next { s with st := 3, txt := [], out := errOut 3 } := by
  obtain ⟨-, htable, hsymbol⟩ := decompFailsByTheFirstCause s hst
  have hpos : 1 ≤ x.length := List.length_pos_iff.mpr hne
  by_cases hwhole : ∃ ct' tail, Serialisable ct' ∧
      (tableBits ct ++ x.flatMap (codeOf ct)).take n = tableBits ct' ++ tail
  · obtain ⟨ct', tail, hct', hrest⟩ := hwhole
    have hprefix : tableBits ct' ++ tail <+: tableBits ct ++ x.flatMap (codeOf ct) := hrest ▸ List.take_prefix _ _
    obtain rfl : ct = ct' := tableBits_unique (hct.serialisable hne hlen) hct' (List.prefix_append _ _)
      ((List.prefix_append _ tail).trans hprefix)
    have htail : tail.length < (x.flatMap (codeOf ct)).length := by
      have := congrArg List.length hrest
      simp only [List.length_take, List.length_append] at this hcut
      omega
    rw [hrest, ← List.append_assoc] at hbits
    exact .inr (hsymbol x.length ct tail hpos hlen hcap hct' hbits fun xs hxs =>
      (hct.prefixCode hne hlen).not_decodesTo_of_cut hct.subset ((List.prefix_append_right_inj _).mp hprefix) htail hxs)
  · exact .inl (htable x.length _ hpos hlen hcap hbits fun ct' tail hct' hrest => hwhole ⟨ct', tail, hct', hrest⟩)

/-- DECOMP of bits that end before the artifact of a text does: the count, the table or a symbol is cut. -/
theorem exec_decomp_of_cut {s : State} {x : List Symbol} {ct : List Row} {n : Nat} (hst : s.st = 0)
    (hct : TableOfText x ct) (hlen : x.length < 2 ^ 32) (hcap : x.length ≤ s.cfg.txtCap)
    (hbits : unpack s.buf = (artifact x ct).take n) (hcut : n < (artifact x ct).length) :
    exec .decomp s = .next { s with st := 1, txt := [], out := errOut 1 } ∨
    exec .decomp s = .next { s with st := 3, txt := [], out := errOut 3 } := by
  have hbuf : 8 * s.buf.length = n := by
    rw [← length_unpack, hbits, List.length_take, Nat.min_eq_left hcut.le]
  rcases Nat.lt_or_ge n 32 with hshort | hlong
  · exact .inl ((decompFailsByTheFirstCause s hst).1 (by omega))
  · have hne : x ≠ [] := by
      rintro rfl
      have : n < 32 := by simpa [artifact] using hcut
      omega
    rw [artifact_of_ne_nil hne, List.append_assoc] at hbits hcut
    rw [List.take_append, length_field, List.take_of_length_le (by simpa using hlong)] at hbits
    rw [List.length_append, length_field] at hcut
    exact exec_decomp_of_cut_behind_count hst hct hne hlen hcap hbits (by omega)

/-- Settles O60: fewer bytes than COMP wrote end before the artifact does. -/
theorem truncatedArtifactsAlwaysFail : Obligations.TruncatedArtifactsAlwaysFail := by
  intro s c m hst hlen hcap hcomp hok hm
  obtain ⟨ct, hct⟩ := exists_tableOfText s.txt
  obtain ⟨-, rfl⟩ := eq_afterComp_of_classOf_eq_zero hct hcomp hok
  obtain ⟨hbits, hcut⟩ := unpack_take_pack hm
  obtain h | h := exec_decomp_of_cut
    (s := { afterComp s (artifact s.txt ct) with buf := (pack (artifact s.txt ct)).take m }) hst hct hlen hcap hbits hcut
  · exact ⟨_, h, rfl, .inl ⟨rfl, rfl⟩⟩
  · exact ⟨_, h, rfl, .inr ⟨rfl, rfl⟩⟩

end Sys2Proof.Proofs
end

section
/-! PROOFS. The system family: what CLR and STAT leave and answer, and the latched state (45_system.md R220 to R222,
60_exceptions.md R242). -/

namespace Sys2Proof.Proofs

open Sys2Proof.Machine

/-! ## The two commands (R220, R222) -/

theorem exec_clr (s : State) : exec .clr s = .next (s.cleared.respond (okWords [])) := rfl

theorem exec_stat (s : State) : exec .stat s = .next (s.respond (okWords [s.st])) := rfl

/-- Settles O11: neither command can fail, and the header of an OK response that carries no bit sequence is zero. -/
theorem clrAndStatComplete : Obligations.ClrAndStatComplete :=
  fun s => ⟨exec_clr s, exec_stat s⟩

/-! ## The latched state (R221) -/

theorem clears_iff (a : HostAct) : a.clears = true ↔ a = .reset ∨ a = .issue ⟨0, []⟩ := by
  simp [HostAct.clears]

/-- CLR and reset both leave ST = 0 (R33). -/
theorem step_st_of_clears {s t : State} {a : HostAct} {rest : List HostAct} (hin : s.inbox = a :: rest)
    (ha : a.clears = true) (hstep : step s = .next t) : t.st = 0 := by
  obtain ⟨hreset, hclr, -⟩ := resetAndClrGiveTheResetValues s rest
  rcases (clears_iff a).mp ha with rfl | rfl
  · cases (hreset hin).symm.trans hstep
    rfl
  · cases (hclr hin).symm.trans hstep
    rfl

/-- Settles O9: case split on the interaction taken; an idle step keeps ST, CLR and reset clear it, and no other
interaction touches a latched ST. -/
theorem latchedStatusChangesOnlyByClrOrReset : Obligations.LatchedStatusChangesOnlyByClrOrReset := by
  intro s t hfields hstep
  have hl : s.latched = true := by simpa [State.latched] using hfields
  cases hin : s.inbox with
  | nil =>
    cases (step_of_inbox_nil hin).symm.trans hstep
    exact .inl rfl
  | cons a rest =>
    cases ha : a.clears with
    | true =>
      refine .inr ⟨step_st_of_clears hin ha hstep, rest, ?_⟩
      rcases (clears_iff a).mp ha with rfl | rfl
      · exact .inr rfl
      · exact .inl rfl
    | false =>
      obtain ⟨-, -, hkeeps⟩ := step_reported hin ha hstep
      exact .inl (hkeeps hl)

end Sys2Proof.Proofs
end

section
/-! PROOFS. The exceptions family: what a step makes of an issued command, and what a failed command changes
(60_exceptions.md R236, R240, R242). -/

namespace Sys2Proof.Proofs

open Sys2Proof.Machine Sys2Proof.Spec

/-! ## An issued command (R242, R90) -/

theorem step_of_issue {s : State} {c : Command} {rest : List HostAct} (h : s.inbox = .issue c :: rest) :
    step s = issue c { s with inbox := rest } := by
  rw [step, h]

theorem issue_of_decode_ok {s : State} {c : Command} {i : Instr} (hl : s.latched = false) (h : decode c = .ok i) :
    issue c s = exec i s := by
  simp [issue, State.select, hl, h]

theorem issue_of_decode_error {s : State} {c : Command} {r : RefuseReason} (hl : s.latched = false)
    (h : decode c = .error r) : issue c s = .next (s.refuseCommand r) := by
  simp [issue, State.select, hl, h]

theorem issue_clr (s : State) : issue ⟨0, []⟩ s = exec .clr s := by
  rw [issue, select_clr]

theorem issue_stat_of_latched {s : State} (hl : s.latched = true) : issue ⟨1, []⟩ s = exec .stat s := by
  simp [issue, State.select, hl]

theorem issue_of_latched {s : State} {c : Command} (hl : s.latched = true) (hclr : c ≠ ⟨0, []⟩) (hstat : c ≠ ⟨1, []⟩) :
    issue c s = .next (s.refuseCommand .latched) := by
  rw [issue, State.select, if_pos hl, if_neg hclr, if_neg hstat]

theorem latched_eq_true_iff (s : State) : s.latched = true ↔ errField s.st ≠ 0 ∨ refField s.st ≠ 0 := by
  simp [State.latched]

theorem latched_of_st_eq_zero {s : State} (hst : s.st = 0) : s.latched = false := by
  simp [latched_eq_false_iff, hst, errField, refField]

/-- From ST = 0 the decoder's reason is recorded in ST.REF and answered (R240). -/
theorem issue_of_bad_encoding {s : State} {c : Command} {r : RefuseReason} (hst : s.st = 0) (h : decode c = .error r) :
    issue c s = .next { s with st := BitVec.ofNat 32 (16 * r.code.toNat), out := refOut r.code.toNat } := by
  have hr : r ≠ .latched := fun e => decode_ne_latched c (e ▸ h)
  rw [issue_of_decode_error (latched_of_st_eq_zero hst) h, refuseCommand_of_st_eq_zero hst hr]

/-- The latch test's own refusal is answered and recorded nowhere (R240). -/
theorem refuseCommand_latched (s : State) : s.refuseCommand .latched = { s with out := refOut 5 } := rfl

/-- Settles O7: the latch test lets the decoder's instruction through. -/
theorem stepRunsTheDecodedCommand : Obligations.StepRunsTheDecodedCommand := by
  intro s c rest i hin herr href hdec
  rw [step_of_issue hin]
  exact issue_of_decode_ok ((latched_eq_false_iff _).mpr ⟨herr, href⟩) hdec

/-- Settles O8: from ST = 0 the decoder's refusal is taken; while latched CLR and STAT alone pass the latch test. -/
theorem stepRefusesBadEncodingsAndLatchedCommands : Obligations.StepRefusesBadEncodingsAndLatchedCommands := by
  intro s c rest hin
  rw [step_of_issue hin]
  have hbad {r : RefuseReason} (hst : s.st = 0) (hdec : decode c = .error r) :=
    issue_of_bad_encoding (s := { s with inbox := rest }) hst hdec
  refine ⟨hbad, hbad, fun hlatch => ?_⟩
  have hl : State.latched { s with inbox := rest } = true := (latched_eq_true_iff _).mpr hlatch
  refine ⟨?_, ?_, fun hclr hstat => ?_⟩
  · rintro rfl
    exact issue_clr _
  · rintro rfl
    exact issue_stat_of_latched hl
  · rw [issue_of_latched hl hclr hstat, refuseCommand_latched]

end Sys2Proof.Proofs
end

section
/-! PROOFS. The answers of a command: OK, an error, or a refusal with a reason of its own, and the frame of the two
failures (60_exceptions.md R230, R235, R236, R240). -/

namespace Sys2Proof.Proofs

open Sys2Proof.Machine Sys2Proof.Spec

/-! ## Which steps of a command refuse (R235) -/

/-- The steps end in no refusal. -/
def NeverRefuses {α : Type} (x : Except Stop α) : Prop :=
  ∀ r, x ≠ .error (.refuse r)

theorem OnlyUnderflows.neverRefuses {α : Type} {x : Except Stop α} (h : OnlyUnderflows x) : NeverRefuses x :=
  fun _ hx => nomatch h _ hx

theorem neverRefuses_peek (u : Unpacker) (n : Nat) : NeverRefuses (u.peek n) := by
  unfold Unpacker.peek
  split <;> exact nofun

theorem neverRefuses_walk (nm : List Node) (fuel x : Nat) (path : Bits) : NeverRefuses (walk nm fuel x path) := by
  intro r h
  induction fuel generalizing x path with
  | zero => cases h
  | succ fuel ih =>
    unfold walk at h
    split at h
    · cases h
    · cases h
    · obtain hleft | ⟨a, -, h⟩ := bind_eq_error.mp h
      · exact ih _ _ hleft
      · obtain hright | ⟨b, -, h⟩ := bind_eq_error.mp h
        · exact ih _ _ hright
        · cases h

theorem neverRefuses_buildTable (nm : List Node) (root : Option Nat) : NeverRefuses (buildTable nm root) := by
  cases root with
  | none => exact nofun
  | some x => exact neverRefuses_walk nm _ x []

theorem neverRefuses_codeFor (ct : List Row) (x : Symbol) : NeverRefuses (codeFor ct x) := by
  unfold codeFor
  split <;> exact nofun

theorem neverRefuses_symbolFor (ct : List Row) (u : Unpacker) : NeverRefuses (symbolFor ct u) :=
  fun _ h => nomatch symbolFor_eq_error h

/-- DECOMP refuses an artifact for its count alone (R206). -/
theorem artifactText_eq_refuse {cap : Nat} {b : List Byte} {r : RefuseReason}
    (h : artifactText cap b = .error (.refuse r)) : r = .capacity := by
  obtain hshort | ⟨⟨n, u⟩, hcount, -⟩ := bind_eq_error.mp h
  · exact absurd hshort ((onlyUnderflows_readFixed _ _).neverRefuses r)
  · rw [artifactText_of_count hcount] at h
    split at h
    · cases h
    · split at h
      · cases h
        rfl
      · obtain htable | ⟨p, -, htext⟩ := bind_eq_error.mp h
        · exact absurd htable ((onlyUnderflows_readTable u).neverRefuses r)
        · exact nomatch decodeText_eq_error htext

/-! ## The answers of a command (R230) -/

/-- The three endings of a command by the class of its response; a refusal has one of the two reasons that executing a
command can give. -/
inductive Answers (i : Instr) (s : State) : State → Prop where
  | ok {t : State} (cls : classOf t.out = 0) : Answers i s t
  | error (k : ErrorKind) : Answers i s ((failedOutput i s).raiseError k)
  | refused {r : RefuseReason} (own : r ∈ [RefuseReason.capacity, .emptyTable]) : Answers i s (s.refuseCommand r)

theorem answers_refused_capacity (i : Instr) (s : State) : Answers i s (s.refuseCommand .capacity) := .refused (by decide)

/-- Steps that only compute and never refuse, followed by an OK response. -/
theorem answers_of_bind {α : Type} {i : Instr} {s t : State} {x : Except Stop α} {f : α → State × Response}
    (hx : NeverRefuses x) (hf : ∀ a, classOf (.response (f a).2) = 0)
    (h : s.finish (failedOutput i) (x >>= fun a => pure (f a)) = .next t) : Answers i s t := by
  rcases x with (k | r | fault) | a
  · cases h
    exact .error k
  · exact absurd rfl (hx r)
  · cases h
  · cases h
    exact .ok (hf a)

/-- PKB's two answers, for every command that appends as PKB does. -/
theorem answers_of_exec_pkb {i : Instr} {s t : State} {bits : Bits} (h : exec (.pkb bits) s = .next t) :
    Answers i s t := by
  rcases Nat.lt_or_ge (8 * s.cfg.bufCap) (s.pkBits.length + bits.length) with hlong | hfit
  · cases (exec_pkb_of_exceeds hlong).symm.trans h
    exact answers_refused_capacity i s
  · cases (exec_pkb_of_fits hfit).symm.trans h
    exact .ok rfl

theorem answers_of_exec_ctser {s t : State} (h : exec .ctser s = .next t) : Answers .ctser s t := by
  by_cases hct : s.ct = []
  · cases (exec_ctser_of_empty hct).symm.trans h
    exact .refused (by decide)
  · exact answers_of_exec_pkb (exec_ctser_eq_exec_pkb hct ▸ h)

theorem answers_of_exec_comp {s t : State} (h : exec .comp s = .next t) : Answers .comp s t := by
  obtain ⟨ct, -, hbits⟩ := artifactBits_eq_artifact s.txt
  rcases Nat.lt_or_ge (pkCap s.cfg) (artifact s.txt ct).length with hlong | hfit
  · cases (exec_comp_of_exceeds hbits hlong).symm.trans h
    exact answers_refused_capacity .comp s
  · cases (exec_comp_of_fits hbits hfit).symm.trans h
    exact .ok (classOf_okWords _)

theorem answers_of_exec_decomp {s t : State} (h : exec .decomp s = .next t) : Answers .decomp s t := by
  cases htext : artifactText s.cfg.txtCap s.buf with
  | ok x =>
    cases (exec_decomp_of_ok htext).symm.trans h
    exact .ok rfl
  | error e =>
    rw [exec_decomp_of_error htext] at h
    cases e with
    | raise k =>
      cases h
      exact .error k
    | refuse r =>
      cases artifactText_eq_refuse htext
      cases h
      exact answers_refused_capacity .decomp s
    | stuck f => cases h

theorem classOf_okBits (b : Bits) : classOf (.response (okBits b)) = 0 :=
  classOf_respHeader ..

/-- Every command that goes on gives one of the three answers. -/
theorem exec_answers {i : Instr} {s t : State} (h : exec i s = .next t) : Answers i s t := by
  cases i with
  | clr | stat | pkfin | upld | tbld => cases h; exact .ok (classOf_okWords _)
  | pkb _ => exact answers_of_exec_pkb h
  | pkf v w => exact answers_of_exec_pkb (exec_pkf_eq_exec_pkb s v w ▸ h)
  | ctser => exact answers_of_exec_ctser h
  | uprf _ => exact answers_of_bind (onlyUnderflows_readFixed _ _).neverRefuses (fun _ => classOf_okWords _) h
  | uppk _ => exact answers_of_bind (f := fun a => (s, okBits a)) (neverRefuses_peek _ _) classOf_okBits h
  | uprb _ => exact answers_of_bind (onlyUnderflows_read _ _).neverRefuses (fun a => classOf_okBits a.1) h
  | ctbld => exact answers_of_bind (neverRefuses_buildTable _ _) (fun _ => classOf_okWords _) h
  | ctdes => exact answers_of_bind (onlyUnderflows_readTable _).neverRefuses (fun _ => classOf_okWords _) h
  | ctcode _ => exact answers_of_bind (f := fun a => (s, okBits a)) (neverRefuses_codeFor _ _) classOf_okBits h
  | ctsym => exact answers_of_bind (neverRefuses_symbolFor _ _) (fun _ => classOf_okWords _) h
  | comp => exact answers_of_exec_comp h
  | decomp => exact answers_of_exec_decomp h

/-! ## The frame of the failures (R236, R240) -/

/-- Only a failed COMP or DECOMP loses an output, BUF or TXT (R236 (b)). -/
theorem failedOutput_eq (i : Instr) (s : State) : failedOutput i s =
    { s with txt := if i = .decomp then [] else s.txt, buf := if i = .comp then [] else s.buf } := by
  cases i <;> rfl

theorem raiseError_failedOutput {s : State} (hst : s.st = 0) (i : Instr) (k : ErrorKind) :
    (failedOutput i s).raiseError k = { s with
      st := BitVec.ofNat 32 k.code.toNat
      txt := if i = .decomp then [] else s.txt
      buf := if i = .comp then [] else s.buf
      out := errOut k.code.toNat } := by
  have hst' : (failedOutput i s).st = 0 := by rw [failedOutput_eq, hst]
  rw [raiseError_of_st_eq_zero hst', failedOutput_eq]

/-- Settles O18: the class of the response tells the answer apart, and each failure's state is written out. -/
theorem failedCommandsChangeOnlyStatusAndOutput : Obligations.FailedCommandsChangeOnlyStatusAndOutput := by
  intro i s t hst h
  cases exec_answers h with
  | ok hcls => simp [hcls]
  | error k => exact ⟨by simp, fun _ => ⟨k, raiseError_failedOutput hst i k⟩, by simp⟩
  | @refused r hown =>
    have hr : r ≠ .latched := by
      rintro rfl
      exact absurd hown (by decide)
    exact ⟨by simp, by simp, fun _ => ⟨r, hown, refuseCommand_of_st_eq_zero hst hr⟩⟩

end Sys2Proof.Proofs
end

section
/-! PROOFS. The reset and hazards family: in a state that meets the invariants every command and every interaction the host
can make has a next state (20_memory.md R71, 60_exceptions.md R230, 70_reset_and_hazards.md R264). -/

namespace Sys2Proof.Proofs

open Sys2Proof.Machine Sys2Proof.Spec

/-! ## Steps that meet no tree that is no tree (log 6) -/

/-- The steps do not end in a fault of the model; errors and refusals of the spec they may end in. -/
def NeverStuck {α : Type} (x : Except Stop α) : Prop :=
  ∀ f, x ≠ .error (.stuck f)

theorem neverStuck_bind {α β : Type} {x : Except Stop α} {f : α → Except Stop β} (hx : NeverStuck x)
    (hf : ∀ a, NeverStuck (f a)) : NeverStuck (x >>= f) := by
  intro fault h
  obtain h | ⟨a, -, h⟩ := bind_eq_error.mp h
  · exact hx fault h
  · exact hf a fault h

theorem OnlyUnderflows.neverStuck {α : Type} {x : Except Stop α} (h : OnlyUnderflows x) : NeverStuck x :=
  fun _ hx => nomatch h _ hx

theorem neverStuck_peek (u : Unpacker) (n : Nat) : NeverStuck (u.peek n) := by
  unfold Unpacker.peek
  split <;> exact nofun

theorem neverStuck_codeFor (ct : List Row) (x : Symbol) : NeverStuck (codeFor ct x) := by
  unfold codeFor
  split <;> exact nofun

theorem neverStuck_symbolFor (ct : List Row) (u : Unpacker) : NeverStuck (symbolFor ct u) :=
  fun _ h => nomatch symbolFor_eq_error h

theorem neverStuck_decodeText (ct : List Row) (n : Nat) (u : Unpacker) : NeverStuck (decodeText ct n u) :=
  fun _ h => nomatch decodeText_eq_error h

/-- DECOMP walks no tree: it reads its table from the artifact. -/
theorem neverStuck_artifactText (cap : Nat) (b : List Byte) : NeverStuck (artifactText cap b) := by
  refine neverStuck_bind (onlyUnderflows_readFixed _ _).neverStuck fun p => ?_
  dsimp only
  split
  · exact nofun
  · split
    · exact nofun
    · exact neverStuck_bind (onlyUnderflows_readTable _).neverStuck fun _ => neverStuck_decodeText _ _ _

/-- A legal tree state has a table: no tree has the empty one, and the walk of a tree answers from its root (R171). -/
theorem buildTable_of_treeOk {nm : List Node} {root : Option Nat} (h : TreeOk nm root) :
    ∃ ct, buildTable nm root = .ok ct := by
  obtain ⟨-, rfl⟩ | ⟨k, htree⟩ := h
  · exact ⟨[], rfl⟩
  · rw [htree.top]
    exact (rooted_of_treeOf htree).buildTable_answers

/-! ## Every command has a next state (R230, R264) -/

/-- Of the outcomes of a command only a fault of the model is no next state. -/
theorem finish_eq_next {s : State} {emptied : State → State} {x : Except Stop (State × Response)} (hx : NeverStuck x) :
    ∃ t, s.finish emptied x = .next t := by
  obtain ⟨u, resp, -, hnext⟩ | ⟨k, -, hnext⟩ | ⟨reason, -, hnext⟩ | ⟨f, hstuck, -⟩ := finish_cases s emptied x
  · exact ⟨_, hnext⟩
  · exact ⟨_, hnext⟩
  · exact ⟨_, hnext⟩
  · exact absurd hstuck (hx f)

/-- Steps that only compute and meet no fault, followed by a state and a response. -/
theorem finish_bind_eq_next {α : Type} {s : State} {emptied : State → State} {x : Except Stop α}
    {f : α → State × Response} (hx : NeverStuck x) : ∃ t, s.finish emptied (x >>= fun a => pure (f a)) = .next t :=
  finish_eq_next (neverStuck_bind hx fun _ => nofun)

/-- An append goes on: it fits or is refused. -/
theorem exec_pkb_eq_next (s : State) (bits : Bits) : ∃ t, exec (.pkb bits) s = .next t := by
  rcases Nat.lt_or_ge (8 * s.cfg.bufCap) (s.pkBits.length + bits.length) with hlong | hfit
  · exact ⟨_, exec_pkb_of_exceeds hlong⟩
  · exact ⟨_, exec_pkb_of_fits hfit⟩

theorem exec_ctser_eq_next (s : State) : ∃ t, exec .ctser s = .next t := by
  by_cases hct : s.ct = []
  · exact ⟨_, exec_ctser_of_empty hct⟩
  · exact exec_ctser_eq_exec_pkb hct ▸ exec_pkb_eq_next s _

/-- Of the invariants a command needs R28 alone, and CTBLD alone needs it: COMP walks the tree of its own text. -/
theorem exec_eq_next {s : State} (htree : TreeOk s.nm s.root) (i : Instr) : ∃ t, exec i s = .next t := by
  cases i with
  | clr | stat | pkfin | upld | tbld => exact ⟨_, rfl⟩
  | pkb bits => exact exec_pkb_eq_next s bits
  | pkf v w => exact exec_pkf_eq_exec_pkb s v w ▸ exec_pkb_eq_next s _
  | uprf _ => exact finish_bind_eq_next (onlyUnderflows_readFixed _ _).neverStuck
  | uppk _ => exact finish_bind_eq_next (f := fun a => (s, okBits a)) (neverStuck_peek _ _)
  | uprb _ => exact finish_bind_eq_next (onlyUnderflows_read _ _).neverStuck
  | ctbld =>
    obtain ⟨ct, hct⟩ := buildTable_of_treeOk htree
    exact ⟨_, exec_ctbld_of_ok hct⟩
  | ctser => exact exec_ctser_eq_next s
  | ctdes => exact finish_bind_eq_next (onlyUnderflows_readTable _).neverStuck
  | ctcode _ => exact finish_bind_eq_next (f := fun a => (s, okBits a)) (neverStuck_codeFor _ _)
  | ctsym => exact finish_bind_eq_next (neverStuck_symbolFor _ _)
  | comp => exact (compNeverRaises s).imp fun _ h => h.1
  | decomp => exact finish_bind_eq_next (neverStuck_artifactText _ _)

/-! ## Every step has a next state (R71) -/

/-- A command the host issues runs or is refused, and both are next states. -/
theorem issue_eq_next {s : State} (htree : TreeOk s.nm s.root) (c : Command) : ∃ t, issue c s = .next t := by
  unfold issue
  split
  · exact exec_eq_next htree _
  · exact ⟨_, rfl⟩

/-- Only the interaction a step takes has to be one the host can make. -/
theorem step_eq_next_of_possible {s : State} {a : HostAct} {rest : List HostAct} (htree : TreeOk s.nm s.root)
    (hin : s.inbox = a :: rest) (hpossible : a.possible s.cfg = true) : ∃ t, step s = .next t := by
  rw [step, hin]
  cases a with
  | issue c => exact issue_eq_next (s := { s with inbox := rest }) htree c
  | writeTxt t => exact ⟨_, hostWriteTxt_of_length_le (s := { s with inbox := rest }) (of_decide_eq_true hpossible)⟩
  | writeBuf b => exact ⟨_, hostWriteBuf_of_length_le (s := { s with inbox := rest }) (of_decide_eq_true hpossible)⟩
  | readTxt | readBuf | reset => exact ⟨_, rfl⟩

/-- Settles O15: case split on the command and on the interaction taken; of the invariants it turns on the legal tree. -/
theorem invariantStatesNeverStop : Obligations.InvariantStatesNeverStop := by
  refine fun s hinv => ⟨exec_eq_next hinv.tree, fun hpossible => ?_⟩
  cases hin : s.inbox with
  | nil => exact ⟨_, step_of_inbox_nil hin⟩
  | cons a rest => exact step_eq_next_of_possible hinv.tree hin (hpossible a (by simp [hin]))

end Sys2Proof.Proofs
end
